-- ==== Sys2Proof/Word.lean ====
section
/-! DEFINITION. The bit strings the spec names: bytes of an image, Machine Words and their three fields
(00_scope.md R8, 30_encoding.md R37). Stack entries, memory cells and the accumulator are integers in Val_W
(00_scope.md R7, R9) and stand as `Int`; their width W is a parameter, so it is an invariant and no type. -/

namespace Sys2Proof

/-- One byte of a program image (20_memory.md R28). -/
abbrev Byte := BitVec 8

/-- One 32-bit Machine Word (30_encoding.md R36). -/
abbrev Word := BitVec 32

/-- The opcode field, bits [31:24] (30_encoding.md R37). -/
abbrev Opcode := BitVec 8

/-- The slot field, bits [23:19] (30_encoding.md R37). -/
abbrev Slot := BitVec 5

/-- The immediate field, bits [18:0], unsigned (30_encoding.md R37, R40). -/
abbrev Imm := BitVec 19

end Sys2Proof
end

