-- ==== Sys2Proof/Config.lean ====
section
/-! DEFINITION. The implementation parameters of 00_scope.md R6, with their legal and their reference values. -/

namespace Sys2Proof

/-- The ten mnemonics of the catalog (00_scope.md R2, 30_encoding.md R43). -/
inductive Mnemonic where
  | loadConstant
  | loadMemory
  | storeToMemory
  | greater
  | load
  | store
  | add
  | sub
  | jump
  | halt
deriving DecidableEq, Repr

/-- OPCODE_MAP: the 8-bit opcode of each of the ten mnemonics (00_scope.md R6, 30_encoding.md R43). -/
structure OpcodeMap where
  loadConstant : Opcode
  loadMemory : Opcode
  storeToMemory : Opcode
  greater : Opcode
  load : Opcode
  store : Opcode
  add : Opcode
  sub : Opcode
  jump : Opcode
  halt : Opcode
deriving DecidableEq, Repr

/-- The reference assignment of 30_encoding.md R43. UNVERIFIED (log 2): it is the spec's own (D1), not the
repository's numbering. Unsafe for a claim about a real binary that is proved for this map alone. -/
def OpcodeMap.reference : OpcodeMap where
  loadConstant := 0x01
  loadMemory := 0x02
  storeToMemory := 0x03
  greater := 0x04
  load := 0x10
  store := 0x11
  add := 0x12
  sub := 0x13
  jump := 0x14
  halt := 0x15

/-- The ten opcodes a map assigns. -/
def OpcodeMap.opcodes (m : OpcodeMap) : List Opcode :=
  [m.loadConstant, m.loadMemory, m.storeToMemory, m.greater, m.load, m.store, m.add, m.sub, m.jump, m.halt]

/-- "any injective map from the ten mnemonics to 0..255" (00_scope.md R6). -/
def OpcodeMap.legal (m : OpcodeMap) : Bool := decide m.opcodes.Nodup

/-- The parameters of 00_scope.md R6. `traceDepth` is `none` for `unbounded`. -/
structure Config where
  opcodeMap : OpcodeMap
  w : Nat
  memSize : Nat
  stackDepth : Nat
  progMax : Nat
  traceDepth : Option Nat
deriving DecidableEq, Repr

/-- The reference values of 00_scope.md R6. UNVERIFIED (log 2): the spec's own choice (D2, D4, D5, D14, D17).
Unsafe for a claim about another instance of the hardware. -/
def Config.reference : Config where
  opcodeMap := OpcodeMap.reference
  w := 32
  memSize := 1024
  stackDepth := 256
  progMax := 524288
  traceDepth := none

/-- TRACE_DEPTH is "a positive integer, or `unbounded`" (00_scope.md R6). -/
def Config.traceDepthLegal (c : Config) : Bool :=
  match c.traceDepth with
  | none => true
  | some d => decide (0 < d)

/-- The legal values of 00_scope.md R6. -/
def Config.legal (c : Config) : Bool :=
  c.opcodeMap.legal && decide (20 ≤ c.w) && decide (1 ≤ c.memSize) && decide (c.memSize ≤ 2 ^ (c.w - 1)) &&
    decide (2 ≤ c.stackDepth) && decide (1 ≤ c.progMax) && c.traceDepthLegal

/-- PC_W = max(19, ceil(log2(PROG_MAX + 1))) (10_state.md R13); ceil(log2(n + 1)) is `n.log2 + 1` for n ≥ 1. -/
def Config.pcWidth (c : Config) : Nat := max 19 (c.progMax.log2 + 1)

end Sys2Proof
end

