-- ==== Sys2Proof/Syntax.lean ====
section
/-! DEFINITION. The instructions: one constructor for each row of the opcode table. Each carries both operand
fields of its word, the don't-care ones too (30_encoding.md R39, R45), because the trace keeps the word as fetched
(40_cycle.md R57). -/

namespace Sys2Proof

/-- One decoded instruction (30_encoding.md R41, R43). `slot` is bits [23:19], `imm` is bits [18:0]. -/
inductive Instr where
  /-- LOAD_CONSTANT reg value (41_stack.md R61). -/
  | loadConstant (slot : Slot) (imm : Imm)
  /-- LOAD_MEMORY reg (41_stack.md R62). -/
  | loadMemory (slot : Slot) (imm : Imm)
  /-- STORE_TO_MEMORY reg address (41_stack.md R63). -/
  | storeToMemory (slot : Slot) (imm : Imm)
  /-- GREATER (41_stack.md R64). -/
  | greater (slot : Slot) (imm : Imm)
  /-- LOAD addr (42_accumulator.md R66). -/
  | load (slot : Slot) (imm : Imm)
  /-- STORE addr (42_accumulator.md R67). -/
  | store (slot : Slot) (imm : Imm)
  /-- ADD addr (42_accumulator.md R68). -/
  | add (slot : Slot) (imm : Imm)
  /-- SUB addr (42_accumulator.md R69). -/
  | sub (slot : Slot) (imm : Imm)
  /-- JUMP addr (43_control.md R70). -/
  | jump (slot : Slot) (imm : Imm)
  /-- HALT (43_control.md R71). -/
  | halt (slot : Slot) (imm : Imm)
deriving DecidableEq, Repr

end Sys2Proof
end

