-- ==== Sys2Proof/WellFormed.lean ====
section
/-! DEFINITION. Which instructions an encoder writes: those whose unused fields are zero (30_encoding.md R37
"unused bits are zero", R41, R42). Ranges need no check: the field types hold exactly the encodable values.
The machine decodes and runs the other words as well (R42). -/

namespace Sys2Proof

/-- The slot field is zero where the table of 30_encoding.md R41 marks it unused. -/
def Instr.unusedSlotZero : Instr → Bool
  | .loadConstant _ _ | .loadMemory _ _ | .storeToMemory _ _ => true
  | .greater slot _ | .load slot _ | .store slot _ | .add slot _ | .sub slot _ | .jump slot _ | .halt slot _ =>
    slot == 0

/-- The imm field is zero where the table of 30_encoding.md R41 marks it unused. -/
def Instr.unusedImmZero : Instr → Bool
  | .loadConstant _ _ | .storeToMemory _ _ | .load _ _ | .store _ _ | .add _ _ | .sub _ _ | .jump _ _ => true
  | .loadMemory _ imm | .greater _ imm | .halt _ imm => imm == 0

/-- Well-formed: as an encoder writes it (30_encoding.md R37, R42). -/
def Instr.wellFormed (i : Instr) : Bool := i.unusedSlotZero && i.unusedImmZero

end Sys2Proof
end

