-- ==== Sys2Proof/Decode.lean ====
section
/-! DEFINITION. The decoder, total on every 32-bit word, and the encoder (30_encoding.md R36 to R45); the byte
order of a program image (20_memory.md R28, R29). -/

namespace Sys2Proof

/-- `opc <- w[31:24]` (30_encoding.md R39). -/
def opcField (w : Word) : Opcode := w.extractLsb' 24 8

/-- `slot <- w[23:19]` (30_encoding.md R39). -/
def slotField (w : Word) : Slot := w.extractLsb' 19 5

/-- `imm <- w[18:0]` (30_encoding.md R39). -/
def immField (w : Word) : Imm := w.extractLsb' 0 19

/-- `word = opc[7:0] ++ slot[4:0] ++ imm[18:0]` (30_encoding.md R37). -/
def packFields (opc : Opcode) (slot : Slot) (imm : Imm) : Word := opc ++ slot ++ imm

/-- The ten mnemonics, in the table's order. -/
def Mnemonic.all : List Mnemonic :=
  [.loadConstant, .loadMemory, .storeToMemory, .greater, .load, .store, .add, .sub, .jump, .halt]

/-- OPCODE_MAP(m) (30_encoding.md R43). -/
def OpcodeMap.code (o : OpcodeMap) : Mnemonic → Opcode
  | .loadConstant => o.loadConstant
  | .loadMemory => o.loadMemory
  | .storeToMemory => o.storeToMemory
  | .greater => o.greater
  | .load => o.load
  | .store => o.store
  | .add => o.add
  | .sub => o.sub
  | .jump => o.jump
  | .halt => o.halt

/-- OPCODE_MAP⁻¹(opc): "a mnemonic, or none" (30_encoding.md R39). -/
def OpcodeMap.mnemonic? (o : OpcodeMap) (opc : Opcode) : Option Mnemonic :=
  Mnemonic.all.find? fun m => o.code m == opc

/-- `decode_fields(w)` of 30_encoding.md R39: (opc, slot, imm, op). -/
def decodeFields (o : OpcodeMap) (w : Word) : Opcode × Slot × Imm × Option Mnemonic :=
  (opcField w, slotField w, immField w, o.mnemonic? (opcField w))

/-- The mnemonic of an instruction. -/
def Instr.mnemonic : Instr → Mnemonic
  | .loadConstant _ _ => .loadConstant
  | .loadMemory _ _ => .loadMemory
  | .storeToMemory _ _ => .storeToMemory
  | .greater _ _ => .greater
  | .load _ _ => .load
  | .store _ _ => .store
  | .add _ _ => .add
  | .sub _ _ => .sub
  | .jump _ _ => .jump
  | .halt _ _ => .halt

/-- The slot field of an instruction (30_encoding.md R41). -/
def Instr.slot : Instr → Slot
  | .loadConstant slot _ | .loadMemory slot _ | .storeToMemory slot _ | .greater slot _ | .load slot _
  | .store slot _ | .add slot _ | .sub slot _ | .jump slot _ | .halt slot _ => slot

/-- The imm field of an instruction (30_encoding.md R41). -/
def Instr.imm : Instr → Imm
  | .loadConstant _ imm | .loadMemory _ imm | .storeToMemory _ imm | .greater _ imm | .load _ imm
  | .store _ imm | .add _ imm | .sub _ imm | .jump _ imm | .halt _ imm => imm

/-- The instruction with a given mnemonic and given operand fields. -/
def Instr.ofFields (m : Mnemonic) (slot : Slot) (imm : Imm) : Instr :=
  match m with
  | .loadConstant => .loadConstant slot imm
  | .loadMemory => .loadMemory slot imm
  | .storeToMemory => .storeToMemory slot imm
  | .greater => .greater slot imm
  | .load => .load slot imm
  | .store => .store slot imm
  | .add => .add slot imm
  | .sub => .sub slot imm
  | .jump => .jump slot imm
  | .halt => .halt slot imm

/-- Why a word is no instruction. -/
inductive DecodeError where
  /-- `w[31:24]` is not assigned by OPCODE_MAP (30_encoding.md R44). Raised by `decode`. Safe: the spec's own error. -/
  | unknownOpcode (opc : Opcode)
deriving DecidableEq, Repr

/-- The decoder: each word yields one instruction or UnknownOpcode (30_encoding.md R39, R44). Only bits [31:24]
select; the other bits are carried and never refused (R42). -/
def decode (o : OpcodeMap) (w : Word) : Except DecodeError Instr :=
  match o.mnemonic? (opcField w) with
  | none => .error (.unknownOpcode (opcField w))
  | some m => .ok (.ofFields m (slotField w) (immField w))

/-- The word of an instruction (30_encoding.md R37, R41). -/
def encode (o : OpcodeMap) (i : Instr) : Word := packFields (o.code i.mnemonic) i.slot i.imm

/-- The instruction with its don't-care bits cleared: "a field marked unused in rule R41, and the slot field of every
instruction" (30_encoding.md R42). -/
def Instr.clearDontCare : Instr → Instr
  | .loadConstant _ imm => .loadConstant 0 imm
  | .loadMemory _ _ => .loadMemory 0 0
  | .storeToMemory _ imm => .storeToMemory 0 imm
  | .greater _ _ => .greater 0 0
  | .load _ imm => .load 0 imm
  | .store _ imm => .store 0 imm
  | .add _ imm => .add 0 imm
  | .sub _ imm => .sub 0 imm
  | .jump _ imm => .jump 0 imm
  | .halt _ _ => .halt 0 0

/-- The four bytes of a word as an image holds them, most significant first (20_memory.md R28). -/
def bytesOfWord (w : Word) : List Byte :=
  [w.extractLsb' 24 8, w.extractLsb' 16 8, w.extractLsb' 8 8, w.extractLsb' 0 8]

/-- The image of a program: its words in order, big-endian (20_memory.md R28, 30_encoding.md R48). -/
def imageOfWords : List Word → List Byte
  | [] => []
  | w :: rest => bytesOfWord w ++ imageOfWords rest

/-- The words of an image: `prog[i] = b[4i] ++ b[4i+1] ++ b[4i+2] ++ b[4i+3]`; a partial trailing word is dropped
(20_memory.md R28, R29; 40_cycle.md R49). -/
def wordsOfImage : List Byte → List Word
  | b0 :: b1 :: b2 :: b3 :: rest => (b0 ++ b1 ++ b2 ++ b3) :: wordsOfImage rest
  | _ => []

/-- The instruction the decoder reads, under the reference map, from the table's word `w` of `nbits` bits: the word
goes through the image's byte order first. -/
def decodeTableWord (nbits w : Nat) : Option Instr :=
  match wordsOfImage (bytesOfWord (BitVec.ofNat 32 (w % 2 ^ nbits))) with
  | x :: _ =>
    match decode OpcodeMap.reference x with
    | .ok i => some i
    | .error _ => none
  | [] => none

end Sys2Proof
end

