-- ==== Sys2Proof/Machine/State.lean ====
section
/-! DEFINITION. Everything the spec gives the machine (10_state.md §1), as plain data; why a step can stop; the
power-on state and the state after reset (70_reset_and_hazards.md R87, R88). -/

namespace Sys2Proof.Machine

/-- `run_state` (10_state.md R19). -/
inductive RunState where
  | idle
  | running
  | halted
  | faulted
deriving DecidableEq, Repr

/-- `halt_reason` (10_state.md R19). `haltInstruction` is code 0, which the field also holds when the core is not
Halted ("0 otherwise"). -/
inductive HaltReason where
  | haltInstruction
  | ranOffEnd
deriving DecidableEq, Repr

/-- `cause` (10_state.md R19, 60_exceptions.md R72). `reserved` is code 7, which nothing ever raises. -/
inductive Cause where
  | none
  | unknownOpcode
  | stackUnderflow
  | invalidAddress
  | stackOverflow
  | arithmeticOverflow
  | traceOverflow
  | reserved
deriving DecidableEq, Repr

/-- A fault the core raises, with the `info` that 60_exceptions.md R72 records for it. -/
inductive CoreFault where
  /-- info: the opcode `w[31:24]`. -/
  | unknownOpcode (opc : Opcode)
  /-- info: `len(stk)` before the instruction. -/
  | stackUnderflow (depth : Nat)
  /-- info: the address, signed. -/
  | invalidAddress (a : Int)
  /-- info: `len(stk)`. -/
  | stackOverflow (depth : Nat)
  /-- info: the exact result. -/
  | arithmeticOverflow (r : Int)
  /-- no info, and no record (40_cycle.md R60). -/
  | traceOverflow
deriving DecidableEq, Repr

/-- `Effect` of a trace record: one constructor per outcome (40_cycle.md R58). -/
inductive Effect where
  | push (v : Int)
  | memLoad (a v : Int)
  | memStore (a v : Int)
  | compare (a b r : Int)
  | accLoad (a v : Int)
  | accStore (a v : Int)
  | accAdd (a m r : Int)
  | accSub (a m r : Int)
  | jump (t : Nat)
  | halt
  | fault (f : CoreFault)
deriving DecidableEq, Repr

/-- A trace record (40_cycle.md R57). -/
structure TraceRecord where
  pc : Nat
  word : Word
  op : Option Mnemonic
  effect : Effect
deriving DecidableEq, Repr

/-- The status record (10_state.md R19). -/
structure Status where
  runState : RunState
  haltReason : HaltReason
  cause : Cause
  faultPc : Nat
  faultOpcode : Opcode
  truncated : Bool
  droppedBytes : BitVec 2
  progLen : Nat
deriving DecidableEq, Repr

/-- The data memory: the cells that do not hold the reset value 0, as (address, value) pairs with strictly rising
addresses (10_state.md R18). DESIGN CHOICE (log 7), safe: one address names one W-bit cell (20_memory.md R26, D25),
so an entry is a cell and no byte. -/
abbrev Memory := List (Nat × Int)

/-- The machine (10_state.md §1). `stk` holds the top of the stack first, `trace` the oldest record first (log 8).
`N` is `prog.length`. `cfg` holds the parameters of 00_scope.md R6, which nothing changes (log 1). -/
structure State where
  cfg : Config
  prog : List Word
  pc : Nat
  stk : List Int
  acc : Int
  mem : Memory
  status : Status
  trace : List TraceRecord
deriving DecidableEq, Repr

/-- Why a step ends in a fault of the model. A fault of 60_exceptions.md R72 is no such stop: it is TAKEN, as a next
state with run_state Faulted (R74). -/
inductive Fault where
  /-- The status record of a Faulted core holds the reserved cause code 7. Raised by `step`. Safe:
  93_implementation_defined.md #19 says "never produced; a model that sees it should `fault`". -/
  | reservedCause
deriving DecidableEq, Repr

/-- Why a step is refused. -/
inductive Refusal where
  /-- An arm of `exec` without a meaning. Raised by no arm of this model. Safe. -/
  | notModelled (mnemonic : String)
deriving DecidableEq, Repr

/-- The status record at power-on: "run_state is Idle and every other status field is 0" (10_state.md R20). -/
def Status.powerOn : Status where
  runState := .idle
  haltReason := .haltInstruction
  cause := .none
  faultPc := 0
  faultOpcode := 0
  truncated := false
  droppedBytes := 0
  progLen := 0

/-- The block at power-on, before any Load, with parameters `c` (70_reset_and_hazards.md R88). -/
def State.powerOn (c : Config) : State where
  cfg := c
  prog := []
  pc := 0
  stk := []
  acc := 0
  mem := []
  status := Status.powerOn
  trace := []

/-- The machine right after the execution reset of 70_reset_and_hazards.md R87, on a block that was powered on with
the reference parameters and holds no program: Running, every element at its reset value. DESIGN CHOICE (log 3),
safe: R87's reset, not the power-on of R88, is the reset of this name. -/
def State.reset : State :=
  { State.powerOn Config.reference with status := { Status.powerOn with runState := .running } }

end Sys2Proof.Machine
end

