-- ==== Sys2Proof/Machine/Flags.lean ====
section
/-! DEFINITION. The hardware has no flags (10_state.md R14). Here stand the two conditions its ALUs compute: the range
check of the accumulator ALU and the signed comparison of the stack ALU. -/

namespace Sys2Proof.Machine

/-- 2^(W-1), the bound of Val_W (00_scope.md R7). -/
def valLimit (w : Nat) : Int := ((2 ^ (w - 1) : Nat) : Int)

/-- `inrange_W(x)`: x is in Val_W = [-2^(W-1), 2^(W-1) - 1] (00_scope.md R7, R9). -/
def inRange (w : Nat) (x : Int) : Bool := decide (-valLimit w ≤ x) && decide (x ≤ valLimit w - 1)

/-- GREATER's result: 1 if a > b as signed integers, else 0 (41_stack.md R64). -/
def greaterResult (a b : Int) : Int := if a > b then 1 else 0

end Sys2Proof.Machine
end

