-- ==== Sys2Proof/Machine/Operands.lean ====
section
/-! DEFINITION. The operand forms: the immediate as a constant, as a data address and as a program index
(30_encoding.md R40), and the memory address generator (20_memory.md R24, R25). -/

namespace Sys2Proof.Machine

/-- `zext_W(imm) = imm` (00_scope.md R9, 30_encoding.md R40). -/
def immValue (imm : Imm) : Int := (imm.toNat : Int)

/-- The immediate as a program index, in words (43_control.md R70). -/
def immTarget (imm : Imm) : Nat := imm.toNat

/-- `agen_check(a)`: the cell that address `a` names, or none where `0 ≤ a < MEM_SIZE` fails (20_memory.md R24). -/
def agen (c : Config) (a : Int) : Option Nat :=
  if 0 ≤ a ∧ a < (c.memSize : Int) then some a.toNat else none

end Sys2Proof.Machine
end

