-- ==== Sys2Proof/Machine/Ops.lean ====
section
/-! DEFINITION. The operations every meaning shares: a data cell's read and write, completing an instruction, and
taking a fault. -/

namespace Sys2Proof.Machine

/-- What a cell nothing has written reads as: 0, its reset value (10_state.md R18, 20_memory.md R32). -/
def Memory.unlisted : Int := 0

/-- `MemRead(a, 1)` (20_memory.md R26). -/
def Memory.read : Memory → Nat → Int
  | [], _ => Memory.unlisted
  | (k, v) :: rest, a => if k = a then v else Memory.read rest a

/-- The memory with cell `a` back at its reset value. -/
def Memory.erase (m : Memory) (a : Nat) : Memory := m.filter fun c => c.1 != a

/-- `m` with the entry (a, v) at its place. -/
def Memory.insertCell : Memory → Nat → Int → Memory
  | [], a, v => [(a, v)]
  | (k, x) :: rest, a, v => if a < k then (a, v) :: (k, x) :: rest else (k, x) :: Memory.insertCell rest a v

/-- `MemWrite(a, 1, v)` (20_memory.md R26). It keeps the canonical form: writing 0 removes the entry. -/
def Memory.write (m : Memory) (a : Nat) (v : Int) : Memory :=
  if v = Memory.unlisted then m.erase a else (m.erase a).insertCell a v

/-- The canonical form: addresses strictly rising, no entry that an unlisted cell would equal. -/
def Memory.wf (m : Memory) : Bool :=
  decide (m.Pairwise fun x y => x.1 < y.1) && m.all fun c => c.2 != Memory.unlisted

/-- The fault's code in `status.cause` (60_exceptions.md R72). -/
def CoreFault.cause : CoreFault → Cause
  | .unknownOpcode _ => .unknownOpcode
  | .stackUnderflow _ => .stackUnderflow
  | .invalidAddress _ => .invalidAddress
  | .stackOverflow _ => .stackOverflow
  | .arithmeticOverflow _ => .arithmeticOverflow
  | .traceOverflow => .traceOverflow

/-- `Done(effect, next)`: the record is appended and pc takes `next` (40_cycle.md R50, R53, R59). The record's word is
the encoding of the instruction, which is the fetched word when `step` runs it (log 9). -/
def State.done (s : State) (i : Instr) (e : Effect) (next : Nat) : State :=
  { s with
    trace := s.trace ++ [⟨s.pc, encode s.cfg.opcodeMap i, some i.mnemonic, e⟩]
    pc := next }

/-- TAKING A FAULT (60_exceptions.md R74), for every fault of R72. `fetched` is the fetched word with its decoded
operation, or none for TraceOverflow, which fetches no word. It appends the record, sets the status and stops the
core; pc, stack, accumulator, memory and program store stay (R75). There is no return from a fault (R76): no
step leaves the state Faulted. The host leaves it by Start, or by a Load, which makes the core Idle (log 20). -/
def State.takeFault (s : State) (f : CoreFault) (fetched : Option (Word × Option Mnemonic)) : State :=
  match fetched with
  | some (w, op) =>
    { s with
      trace := s.trace ++ [⟨s.pc, w, op, .fault f⟩]
      status := { s.status with
        runState := .faulted
        cause := f.cause
        faultPc := s.pc
        faultOpcode := opcField w } }
  | none =>
    { s with
      status := { s.status with
        runState := .faulted
        cause := f.cause
        faultPc := s.pc
        faultOpcode := 0 } }

/-- `Fault(cause, info)` returned by the instruction `i`: no write of `i` commits (40_cycle.md R50, R52). -/
def State.raise (s : State) (i : Instr) (f : CoreFault) : State :=
  s.takeFault f (some (encode s.cfg.opcodeMap i, some i.mnemonic))

end Sys2Proof.Machine
end

