-- ==== Sys2Proof/Machine/Accumulator.lean ====
section
/-! DEFINITION. The register-style accumulator instructions (42_accumulator.md R65 to R69). None of them reads or
writes the stack. -/

namespace Sys2Proof.Machine

/-- LOAD (42_accumulator.md R66). -/
def execLoad (slot : Slot) (imm : Imm) (s : State) : Host.Outcome State Fault Refusal :=
  match agen s.cfg (immValue imm) with
  | none => .next (s.raise (.load slot imm) (.invalidAddress (immValue imm)))
  | some cell =>
    .next ({ s with acc := s.mem.read cell }.done (.load slot imm) (.accLoad (immValue imm) (s.mem.read cell))
      (s.pc + 1))

/-- STORE (42_accumulator.md R67). -/
def execStore (slot : Slot) (imm : Imm) (s : State) : Host.Outcome State Fault Refusal :=
  match agen s.cfg (immValue imm) with
  | none => .next (s.raise (.store slot imm) (.invalidAddress (immValue imm)))
  | some cell =>
    .next ({ s with mem := s.mem.write cell s.acc }.done (.store slot imm) (.accStore (immValue imm) s.acc)
      (s.pc + 1))

/-- The accumulator ALU (42_accumulator.md R65): the exact result `r` is written when it lies in Val_W, and raises
ArithmeticOverflow(r) when it does not; the address check comes first (60_exceptions.md R73). `alu` gives the exact
result from the accumulator and the cell, `record` the effect from the cell and the result. -/
def accArith (i : Instr) (alu : Int → Int → Int) (record : Int → Int → Effect) (s : State) :
    Host.Outcome State Fault Refusal :=
  match agen s.cfg (immValue i.imm) with
  | none => .next (s.raise i (.invalidAddress (immValue i.imm)))
  | some cell =>
    if inRange s.cfg.w (alu s.acc (s.mem.read cell)) then
      .next ({ s with acc := alu s.acc (s.mem.read cell) }.done i
        (record (s.mem.read cell) (alu s.acc (s.mem.read cell))) (s.pc + 1))
    else
      .next (s.raise i (.arithmeticOverflow (alu s.acc (s.mem.read cell))))

/-- ADD (42_accumulator.md R68). -/
def execAdd (slot : Slot) (imm : Imm) (s : State) : Host.Outcome State Fault Refusal :=
  accArith (.add slot imm) (fun acc m => acc + m) (fun m r => .accAdd (immValue imm) m r) s

/-- SUB (42_accumulator.md R69): acc is the minuend. -/
def execSub (slot : Slot) (imm : Imm) (s : State) : Host.Outcome State Fault Refusal :=
  accArith (.sub slot imm) (fun acc m => acc - m) (fun m r => .accSub (immValue imm) m r) s

end Sys2Proof.Machine
end

