-- ==== Sys2Proof/Machine/Control.lean ====
section
/-! DEFINITION. Control transfer and HALT (43_control.md R70, R71). -/

namespace Sys2Proof.Machine

/-- JUMP (43_control.md R70): the target is an absolute word index and is not checked here. -/
def execJump (slot : Slot) (imm : Imm) (s : State) : Host.Outcome State Fault Refusal :=
  .next (s.done (.jump slot imm) (.jump (immTarget imm)) (immTarget imm))

/-- HALT (43_control.md R71): the `Halt` record is appended, pc keeps HALT's own index, and the core is Halted with
reason HaltInstruction (40_cycle.md R50, R53). -/
def execHalt (slot : Slot) (imm : Imm) (s : State) : Host.Outcome State Fault Refusal :=
  .next ({ s with status := { s.status with runState := .halted, haltReason := .haltInstruction } }.done
    (.halt slot imm) .halt s.pc)

end Sys2Proof.Machine
end

