-- ==== Sys2Proof/Machine/Stack.lean ====
section
/-! DEFINITION. The stack subset (41_stack.md R61 to R64). The top of the stack is the head of `stk`. -/

namespace Sys2Proof.Machine

/-- LOAD_CONSTANT (41_stack.md R61). -/
def execLoadConstant (slot : Slot) (imm : Imm) (s : State) : Host.Outcome State Fault Refusal :=
  if s.stk.length = s.cfg.stackDepth then
    .next (s.raise (.loadConstant slot imm) (.stackOverflow s.stk.length))
  else
    .next ({ s with stk := immValue imm :: s.stk }.done (.loadConstant slot imm) (.push (immValue imm)) (s.pc + 1))

/-- LOAD_MEMORY (41_stack.md R62). -/
def execLoadMemory (slot : Slot) (imm : Imm) (s : State) : Host.Outcome State Fault Refusal :=
  match s.stk with
  | [] => .next (s.raise (.loadMemory slot imm) (.stackUnderflow s.stk.length))
  | a :: rest =>
    match agen s.cfg a with
    | none => .next (s.raise (.loadMemory slot imm) (.invalidAddress a))
    | some cell =>
      .next ({ s with stk := s.mem.read cell :: rest }.done (.loadMemory slot imm) (.memLoad a (s.mem.read cell))
        (s.pc + 1))

/-- STORE_TO_MEMORY (41_stack.md R63): the value is on top, the address beneath it; imm is not read
(90_conflicts.md C1). -/
def execStoreToMemory (slot : Slot) (imm : Imm) (s : State) : Host.Outcome State Fault Refusal :=
  match s.stk with
  | v :: a :: rest =>
    match agen s.cfg a with
    | none => .next (s.raise (.storeToMemory slot imm) (.invalidAddress a))
    | some cell =>
      .next ({ s with stk := rest, mem := s.mem.write cell v }.done (.storeToMemory slot imm) (.memStore a v)
        (s.pc + 1))
  | _ => .next (s.raise (.storeToMemory slot imm) (.stackUnderflow s.stk.length))

/-- GREATER (41_stack.md R64). -/
def execGreater (slot : Slot) (imm : Imm) (s : State) : Host.Outcome State Fault Refusal :=
  match s.stk with
  | b :: a :: rest =>
    .next ({ s with stk := greaterResult a b :: rest }.done (.greater slot imm) (.compare a b (greaterResult a b))
      (s.pc + 1))
  | _ => .next (s.raise (.greater slot imm) (.stackUnderflow s.stk.length))

end Sys2Proof.Machine
end

