-- ==== Sys2Proof/Machine/Dispatch.lean ====
section
/-! DEFINITION. `execute(op, slot, imm)`: exactly one instruction rule by op, exhaustive over the ten mnemonics
(40_cycle.md R52). -/

namespace Sys2Proof.Machine

def exec (i : Instr) (s : State) : Host.Outcome State Fault Refusal :=
  match i with
  | .loadConstant slot imm => Sys2Proof.Machine.execLoadConstant slot imm s
  | .loadMemory slot imm => Sys2Proof.Machine.execLoadMemory slot imm s
  | .storeToMemory slot imm => Sys2Proof.Machine.execStoreToMemory slot imm s
  | .greater slot imm => Sys2Proof.Machine.execGreater slot imm s
  | .load slot imm => Sys2Proof.Machine.execLoad slot imm s
  | .store slot imm => Sys2Proof.Machine.execStore slot imm s
  | .add slot imm => Sys2Proof.Machine.execAdd slot imm s
  | .sub slot imm => Sys2Proof.Machine.execSub slot imm s
  | .jump slot imm => Sys2Proof.Machine.execJump slot imm s
  | .halt slot imm => Sys2Proof.Machine.execHalt slot imm s

end Sys2Proof.Machine
end

