-- ==== Sys2Proof/Machine/Cycle.lean ====
section
/-! DEFINITION. Fetch, the sequencer and termination (40_cycle.md R50, R51, R54, R60). -/

namespace Sys2Proof.Machine

/-- Fetch: `w <- prog[pc]`, or none where pc ≥ N (40_cycle.md R51). -/
def State.fetch (s : State) : Option Word := s.prog[s.pc]?

/-- TRACE_DEPTH is finite and the buffer holds TRACE_DEPTH records (40_cycle.md R50, R60). -/
def State.traceFull (s : State) : Bool :=
  match s.cfg.traceDepth with
  | none => false
  | some d => s.trace.length == d

/-- Termination by running off the end: no record (40_cycle.md R54). -/
def State.ranOffEnd (s : State) : State :=
  { s with status := { s.status with runState := .halted, haltReason := .ranOffEnd } }

/-- One step of a Running core (40_cycle.md R50): it runs off the end, or faults, or executes one instruction, with
the checks in the order of 60_exceptions.md R73. -/
def runningStep (s : State) : Host.Outcome State Fault Refusal :=
  match s.fetch with
  | none => .next s.ranOffEnd
  | some w =>
    if s.traceFull then
      .next (s.takeFault .traceOverflow none)
    else
      match decode s.cfg.opcodeMap w with
      | .error (.unknownOpcode opc) => .next (s.takeFault (.unknownOpcode opc) (some (w, none)))
      | .ok i => exec i s

/-- What `step` answers on a core that is not Running. "The core takes no further step" and "does nothing"
(40_cycle.md R55, 60_exceptions.md R86): the same state. DESIGN CHOICE (log 4), safe. A Faulted core whose cause is
the reserved code faults (93_implementation_defined.md #19; log 5). -/
def restingStep (s : State) : Host.Outcome State Fault Refusal :=
  if s.status.runState = .faulted ∧ s.status.cause = .reserved then .fault .reservedCause else .next s

/-- `prog` with the word `w` at index `k`. Indices between the old end and `k` get the word 0. -/
def placeWord (prog : List Word) (k : Nat) (w : Word) : List Word :=
  if k < prog.length then prog.set k w else prog ++ List.replicate (k - prog.length) 0 ++ [w]

end Sys2Proof.Machine
end

