-- ==== Sys2Proof/Machine/Step.lean ====
section
/-! DEFINITION. One step of the machine, and the placing of one word where the next step fetches. -/

namespace Sys2Proof.Machine

/-- `step()` (40_cycle.md R50, R55): a Running core steps, any other core does nothing. -/
def step (s : State) : Host.Outcome State Fault Refusal :=
  if s.status.runState = .running then runningStep s else restingStep s

/-- `s` with the table's word `w` of `nbits` bits at prog[pc], and Running: the next step fetches and runs it (log 3).
It stands for the host's Load and Start, but it resets nothing. The word goes through the image's byte order. -/
def State.withFetchWord (s : State) (nbits w : Nat) : State :=
  match wordsOfImage (bytesOfWord (BitVec.ofNat 32 (w % 2 ^ nbits))) with
  | x :: _ =>
    { s with
      prog := placeWord s.prog s.pc x
      status := { s.status with runState := .running, progLen := (placeWord s.prog s.pc x).length } }
  | [] => s

end Sys2Proof.Machine
end

