-- ==== Sys2Proof/Machine/HostInterface.lean ====
section
/-! DEFINITION. The host's five transactions (60_exceptions.md R79, R80), the load (40_cycle.md R49), the execution
reset (70_reset_and_hazards.md R87), the numeric codes of the status record (10_state.md R19, 60_exceptions.md R72)
and the exit status (60_exceptions.md R82). A transaction acts between steps (log 12). -/

namespace Sys2Proof.Machine

/-- The code of `run_state` (10_state.md R19). -/
def RunState.code : RunState → BitVec 2
  | .idle => 0
  | .running => 1
  | .halted => 2
  | .faulted => 3

/-- The code of `halt_reason` (10_state.md R19). -/
def HaltReason.code : HaltReason → BitVec 1
  | .haltInstruction => 0
  | .ranOffEnd => 1

/-- The code of `cause` (60_exceptions.md R72). -/
def Cause.code : Cause → BitVec 3
  | .none => 0
  | .unknownOpcode => 1
  | .stackUnderflow => 2
  | .invalidAddress => 3
  | .stackOverflow => 4
  | .arithmeticOverflow => 5
  | .traceOverflow => 6
  | .reserved => 7

/-- The load operation on an image `b`, or none for LoadRefused (40_cycle.md R49, decision D17). DESIGN CHOICE
(log 20), unsafe: a Load on a Halted or Faulted core makes it Idle, as R49, 10_state.md R20 and 60_exceptions.md R79
say, where R86 says that only Start leaves those states; R86 is read with R55: only Start makes the core run again. -/
def State.load (s : State) (b : List Byte) : Option State :=
  if b.length / 4 > s.cfg.progMax then
    none
  else
    some { s with
      prog := wordsOfImage b
      status :=
        { runState := .idle
          haltReason := .haltInstruction
          cause := .none
          faultPc := 0
          faultOpcode := 0
          truncated := decide (b.length % 4 ≠ 0)
          droppedBytes := BitVec.ofNat 2 (b.length % 4)
          progLen := b.length / 4 } }

/-- The execution reset (70_reset_and_hazards.md R87): everything but the parameters, the program store and the load
diagnostics gets its reset value, and the core is Running. -/
def State.executionReset (s : State) : State :=
  { s with
    pc := 0
    stk := []
    acc := 0
    mem := []
    trace := []
    status := { s.status with
      runState := .running
      haltReason := .haltInstruction
      cause := .none
      faultPc := 0
      faultOpcode := 0 } }

/-- The pairs `(i, mem[i])` for `count` addresses from `start` (60_exceptions.md R80). -/
def State.dumpFrom (s : State) (start count : Nat) : List (Nat × Int) :=
  (List.range' start count).map fun i => (i, s.mem.read i)

/-- `ReadDump(all)`: every address of [0, MEM_SIZE), "including untouched zero cells" (60_exceptions.md R80). -/
def State.dumpAll (s : State) : List (Nat × Int) := s.dumpFrom 0 s.cfg.memSize

/-- `ReadDump(start, end)`: the inclusive sub-range, or none unless `0 ≤ start ≤ end < MEM_SIZE`
(60_exceptions.md R80, decision D20). -/
def State.dumpRange (s : State) (first last : Int) : Option (List (Nat × Int)) :=
  if 0 ≤ first ∧ first ≤ last ∧ last < (s.cfg.memSize : Int) then
    some (s.dumpFrom first.toNat (last.toNat - first.toNat + 1))
  else
    none

/-- The label the host gives an address of a dump: `address_` and the address in decimal (60_exceptions.md R80). -/
def dumpLabel (i : Nat) : String := "address_" ++ toString i

/-- A host transaction (60_exceptions.md R79). -/
inductive Transaction where
  | load (image : List Byte)
  | start
  | readStatus
  | readTrace
  | readDumpAll
  | readDump (first last : Int)
deriving DecidableEq, Repr

/-- What a transaction returns (60_exceptions.md R79). -/
inductive Response where
  /-- Load: accepted. -/
  | accepted
  /-- Load: LoadRefused, the image has more than PROG_MAX words (40_cycle.md R49). -/
  | loadRefused
  /-- Start: nothing. -/
  | started
  /-- ReadStatus: the status record. -/
  | status (r : Status)
  /-- ReadTrace: the trace, in order. -/
  | trace (t : List TraceRecord)
  /-- ReadDump: the pairs (address, value). -/
  | dump (d : List (Nat × Int))
  /-- The precondition fails, or the range of a ReadDump is no range of cells: no state changes. -/
  | refused
deriving DecidableEq, Repr

/-- The precondition column of 60_exceptions.md R79. -/
def Transaction.allowed (t : Transaction) (s : State) : Bool :=
  match t with
  | .load _ => s.status.runState != .running
  | .start => s.status.runState == .idle || s.status.runState == .halted || s.status.runState == .faulted
  | .readStatus => true
  | .readTrace => s.status.runState != .running
  | .readDumpAll => s.status.runState == .halted || s.status.runState == .faulted
  | .readDump _ _ => s.status.runState == .halted || s.status.runState == .faulted

/-- The effect and returns columns of 60_exceptions.md R79, for a transaction whose precondition holds. -/
def Transaction.perform (t : Transaction) (s : State) : State × Response :=
  match t with
  | .load image =>
    match s.load image with
    | some s' => (s', .accepted)
    | none => (s, .loadRefused)
  | .start => (s.executionReset, .started)
  | .readStatus => (s, .status s.status)
  | .readTrace => (s, .trace s.trace)
  | .readDumpAll => (s, .dump s.dumpAll)
  | .readDump first last =>
    match s.dumpRange first last with
    | some d => (s, .dump d)
    | none => (s, .refused)

/-- One host transaction: "a transaction whose precondition fails is refused and changes no state"
(60_exceptions.md R79). -/
def transact (t : Transaction) (s : State) : State × Response :=
  if t.allowed s then t.perform s else (s, .refused)

/-- Whether the CLI exits with 0: Halted gives 0, Faulted gives a non-zero exit, a truncated image alone does not
(60_exceptions.md R82); none before the core is Halted or Faulted. -/
def Status.exitIsZero (r : Status) : Option Bool :=
  match r.runState with
  | .halted => some true
  | .faulted => some false
  | .idle | .running => none

/-- Whether the CLI exits with 0 on what a Load returned: a refused load gives a non-zero exit
(60_exceptions.md R82); none for any other response. DESIGN CHOICE (log 21), safe: R82's "refused load" is read as
LoadRefused; a Load turned away by its precondition (R79) answers `refused` and gets no exit status. -/
def Response.exitIsZero : Response → Option Bool
  | .loadRefused => some false
  | _ => none

end Sys2Proof.Machine
end

