-- ==== Sys2Proof/Safety.lean ====
section
/-! DEFINITION. The vocabulary of claims: the invariant of the architectural state, what the trace says of the
execution state, which states the block can reach, and what a safe run is. -/

namespace Sys2Proof.Machine

/-- PC_W bits hold `pc`, and within an execution pc is at most max(N, 2^19 - 1) (10_state.md R13). An Idle core may
hold the pc of an execution of a longer program, because a Load does not change pc (40_cycle.md R49). -/
structure PcInv (s : State) : Prop where
  fits : s.pc < 2 ^ s.cfg.pcWidth
  bound : s.status.runState ≠ .idle → s.pc ≤ max s.prog.length (2 ^ 19 - 1)

/-- Every value lies in Val_W, and the stack holds at most STACK_DEPTH entries (00_scope.md R7, 10_state.md R15,
R16, R18). The memory has its canonical form and lists only cells that exist. -/
structure DataInv (s : State) : Prop where
  stackDepth : s.stk.length ≤ s.cfg.stackDepth
  stackValues : ∀ v ∈ s.stk, inRange s.cfg.w v = true
  accValue : inRange s.cfg.w s.acc = true
  memoryWf : s.mem.wf = true
  memoryCells : ∀ c ∈ s.mem, c.1 < s.cfg.memSize ∧ inRange s.cfg.w c.2 = true

/-- The fields of the status record hold the values of 10_state.md R19. -/
structure StatusInv (s : State) : Prop where
  haltReasonOnlyHalted : s.status.runState ≠ .halted → s.status.haltReason = .haltInstruction
  causeIffFaulted : s.status.cause = .none ↔ s.status.runState ≠ .faulted
  causeNotReserved : s.status.cause ≠ .reserved
  faultPcOfFault : s.status.runState = .faulted → s.status.faultPc = s.pc
  faultPcZero : s.status.runState ≠ .faulted → s.status.faultPc = 0
  faultOpcodeZero : s.status.runState ≠ .faulted ∨ s.status.cause = .traceOverflow → s.status.faultOpcode = 0
  truncatedIffDropped : s.status.truncated = decide (s.status.droppedBytes ≠ 0)
  progLen : s.status.progLen = s.prog.length

/-- `len(trace)` is at most TRACE_DEPTH when TRACE_DEPTH is finite (10_state.md R21). -/
def TraceFits (s : State) : Prop := ∀ d, s.cfg.traceDepth = some d → s.trace.length ≤ d

/-- The invariant of the machine: the parameters are legal (00_scope.md R6), the program fits its store
(10_state.md R17), and every element holds a value that 10_state.md gives it. -/
structure Inv (s : State) : Prop where
  config : s.cfg.legal = true
  progFits : s.prog.length ≤ s.cfg.progMax
  pc : PcInv s
  data : DataInv s
  status : StatusInv s
  traceFits : TraceFits s

/-- The record that completing the instruction `i` with effect `e` appends at `s` (40_cycle.md R57, R59). -/
def recordOf (s : State) (i : Instr) (e : Effect) : TraceRecord :=
  ⟨s.pc, encode s.cfg.opcodeMap i, some i.mnemonic, e⟩

/-- `t` is `s` after taking the fault `f` on the fetched word `w` with operation `op` (60_exceptions.md R72, R74), as
far as a claim may rest on it: the stack and the accumulator are left out (60_exceptions.md R81,
93_implementation_defined.md #7). -/
structure FaultTaken (s t : State) (w : Word) (op : Option Mnemonic) (f : CoreFault) : Prop where
  trace : t.trace = s.trace ++ [⟨s.pc, w, op, .fault f⟩]
  status : t.status =
    { s.status with runState := .faulted, cause := f.cause, faultPc := s.pc, faultOpcode := opcField w }
  pc : t.pc = s.pc
  mem : t.mem = s.mem
  prog : t.prog = s.prog
  cfg : t.cfg = s.cfg

/-- `s` with the words of its trace records forgotten. -/
def State.forgetWords (s : State) : State := { s with trace := s.trace.map fun r => { r with word := 0 } }

/-- By how much the depth of the stack changes when an instruction completes (41_stack.md R61 to R64). -/
def stackChange : Mnemonic → Int
  | .loadConstant => 1
  | .loadMemory => 0
  | .storeToMemory => -2
  | .greater => -1
  | .load | .store | .add | .sub | .jump | .halt => 0

/-- The mnemonic is in the stack subset (00_scope.md R2). -/
def inStackSubset : Mnemonic → Bool
  | .loadConstant | .loadMemory | .storeToMemory | .greater => true
  | .load | .store | .add | .sub | .jump | .halt => false

/-- The mnemonic that a word decodes to, or none (40_cycle.md R57, field `op`). -/
def opOfWord (o : OpcodeMap) (w : Word) : Option Mnemonic := o.mnemonic? (opcField w)

/-- Unless a Load came after the execution, every trace record holds the fetched word of its index and that word's
operation (40_cycle.md R57; decision D27: a Load keeps the trace). -/
def TraceFaithful (s : State) : Prop :=
  s.status.runState ≠ .idle →
    ∀ r ∈ s.trace, s.prog[r.pc]? = some r.word ∧ r.op = opOfWord s.cfg.opcodeMap r.word

/-- What cell `a` holds after an effect, if it held `v` before. -/
def Effect.cellAfter (a : Nat) (v : Int) : Effect → Int
  | .memStore b x => if b = (a : Int) then x else v
  | .accStore b x => if b = (a : Int) then x else v
  | _ => v

/-- What the accumulator holds after an effect, if it held `v` before. -/
def Effect.accAfter (v : Int) : Effect → Int
  | .accLoad _ x => x
  | .accAdd _ _ r => r
  | .accSub _ _ r => r
  | _ => v

/-- What the stack holds after an effect, top first. -/
def Effect.stackAfter (k : List Int) : Effect → List Int
  | .push v => v :: k
  | .memLoad _ v => v :: k.drop 1
  | .memStore _ _ => k.drop 2
  | .compare _ _ r => r :: k.drop 2
  | _ => k

/-- The value of the last store to cell `a` that the trace records, or 0 if there is none (20_memory.md R32). -/
def lastStored (a : Nat) (t : List TraceRecord) : Int := t.foldl (fun v r => r.effect.cellAfter a v) 0

/-- The accumulator that a trace leads to from the execution reset. -/
def replayAcc (t : List TraceRecord) : Int := t.foldl (fun v r => r.effect.accAfter v) 0

/-- The stack that a trace leads to from the execution reset. -/
def replayStack (t : List TraceRecord) : List Int := t.foldl (fun k r => r.effect.stackAfter k) []

/-- Every cell holds the value of the last store to it in this execution (20_memory.md R32). -/
def MemoryIsLastStores (s : State) : Prop := ∀ a, s.mem.read a = lastStored a s.trace

/-- The stack and the accumulator are what the trace's effects make of the reset values. -/
def RegistersReplayTrace (s : State) : Prop := s.stk = replayStack s.trace ∧ s.acc = replayAcc s.trace

/-- The states the block can reach from power-on, with any legal parameters, by host transactions and steps
(60_exceptions.md R79, 70_reset_and_hazards.md R88). -/
inductive Reachable : State → Prop where
  | powerOn (c : Config) : c.legal = true → Reachable (State.powerOn c)
  | host (t : Transaction) (s : State) : Reachable s → Reachable (transact t s).1
  | step (s s' : State) : Reachable s → Machine.step s = .next s' → Reachable s'

/-- `k` steps from `s` lead to `t`. -/
def RunsTo (k : Nat) (s t : State) : Prop := Sys2Proof.core.run k s = .next t

/-- A run is safe so far when no fault is recorded (40_cycle.md R55). -/
def State.safe (s : State) : Bool := s.status.runState != .faulted

/-- An execution has ended: "The states Halted and Faulted are final" (40_cycle.md R55). -/
def State.final (s : State) : Bool := s.status.runState == .halted || s.status.runState == .faulted

end Sys2Proof.Machine
end

