-- ==== Sys2Proof/Certificates/Slice0/Obligations.lean ====
section
/-! DEFINITION. The statements for the provers. Each one is about every state, every operand and every configuration
of parameters it names, reachable or not, unless it says otherwise. The terms Inv, TraceFaithful, FaultTaken, recordOf,
RunsTo and the rest are defined in Sys2Proof/Safety.lean. -/

open Sys2Proof Sys2Proof.Machine

/-- Decoding the word of any instruction gives that instruction, under every legal opcode map (30_encoding.md R45,
30_encoding.md R37, 30_encoding.md R39). -/
def Obligations.DecodeOfEncodeGivesTheInstruction : Prop :=
  ∀ (o : OpcodeMap) (i : Instr), o.legal = true → decode o (encode o i) = .ok i

/-- Encoding the instruction a word decodes to gives the word back, and the instruction has the word's fields
(30_encoding.md R45, 30_encoding.md R39). -/
def Obligations.EncodeOfDecodeGivesTheWord : Prop :=
  ∀ (o : OpcodeMap) (w : Word) (i : Instr), decode o w = .ok i →
    encode o i = w ∧ (o.code i.mnemonic).toNat = w.toNat / 2 ^ 24 ∧ i.slot.toNat = w.toNat / 2 ^ 19 % 2 ^ 5 ∧
      i.imm.toNat = w.toNat % 2 ^ 19

/-- The word is opc·2^24 + slot·2^19 + imm (30_encoding.md R37, 30_encoding.md R41). -/
def Obligations.WordOfAnInstructionHasThreeFields : Prop :=
  ∀ (o : OpcodeMap) (i : Instr),
    (encode o i).toNat = (o.code i.mnemonic).toNat * 2 ^ 24 + i.slot.toNat * 2 ^ 19 + i.imm.toNat

/-- The decoder is total and refuses a word exactly when no mnemonic has its opcode (30_encoding.md R39,
30_encoding.md R44). -/
def Obligations.DecoderRefusesExactlyUnassignedOpcodes : Prop :=
  ∀ (o : OpcodeMap) (w : Word),
    ((∃ e, decode o w = .error e) ↔ ∀ m, o.code m ≠ opcField w) ∧
      ∀ e, decode o w = .error e → e = .unknownOpcode (opcField w)

/-- Every legal opcode map leaves exactly 246 of the 256 opcodes unassigned (30_encoding.md R44, 30_encoding.md
R43). The second clause is about the reference map, which is the spec's own choice (log 2). -/
def Obligations.ALegalMapLeaves246OpcodesIllegal : Prop :=
  (∀ o : OpcodeMap, o.legal = true →
      ((List.range 256).filter fun n => (o.mnemonic? (BitVec.ofNat 8 n)).isNone).length = 246) ∧
    ∀ opc : Opcode, OpcodeMap.reference.mnemonic? opc = none ↔
      opc.toNat = 0 ∨ (5 ≤ opc.toNat ∧ opc.toNat ≤ 15) ∨ 22 ≤ opc.toNat

/-- Words of the spec's test vectors decode, under the reference map, to the instructions the spec gives
(95_test_vectors.md 2.1, 95_test_vectors.md 2.3, 95_test_vectors.md 2.4, 30_encoding.md R37, 30_encoding.md R39,
30_encoding.md R43). One word for each instruction but SUB, whose word is in the tests. The opcodes are those of
the reference map, which is the spec's own choice (D1, log 2). -/
def Obligations.WordsOfTheSpecDecodeAsWritten : Prop :=
  decode OpcodeMap.reference 0x01FFFFFF = .ok (.loadConstant 31 524287) ∧
    decode OpcodeMap.reference 0x02000000 = .ok (.loadMemory 0 0) ∧
    decode OpcodeMap.reference 0x0387FFFF = .ok (.storeToMemory 16 524287) ∧
    decode OpcodeMap.reference 0x04FFFFFF = .ok (.greater 31 524287) ∧
    decode OpcodeMap.reference 0x100003FF = .ok (.load 0 1023) ∧
    decode OpcodeMap.reference 0x11000400 = .ok (.store 0 1024) ∧
    decode OpcodeMap.reference 0x12000005 = .ok (.add 0 5) ∧
    decode OpcodeMap.reference 0x1407FFFF = .ok (.jump 0 524287) ∧
    decode OpcodeMap.reference 0x15FFFFFF = .ok (.halt 31 524287) ∧
    decode OpcodeMap.reference 0x00000000 = .error (.unknownOpcode 0)

/-- Word i of an image is made of its bytes 4i to 4i+3, most significant first (20_memory.md R28, 20_memory.md
R29). -/
def Obligations.ImageWordsAreBigEndian : Prop :=
  ∀ b : List Byte, (wordsOfImage b).length = b.length / 4 ∧
    ∀ i, i < b.length / 4 → ∃ w b0 b1 b2 b3, (wordsOfImage b)[i]? = some w ∧
      b[4 * i]? = some b0 ∧ b[4 * i + 1]? = some b1 ∧ b[4 * i + 2]? = some b2 ∧ b[4 * i + 3]? = some b3 ∧
      w.toNat = b0.toNat * 2 ^ 24 + b1.toNat * 2 ^ 16 + b2.toNat * 2 ^ 8 + b3.toNat

/-- Loading the image of a program gives the program, whatever 0 to 3 bytes follow it (20_memory.md R28,
20_memory.md R29, 40_cycle.md R49). -/
def Obligations.ImageRoundTripDropsOnlyAPartialWord : Prop :=
  ∀ (ws : List Word) (tail : List Byte), tail.length < 4 → wordsOfImage (imageOfWords ws ++ tail) = ws

/-- LOAD_CONSTANT on a stack that is not full pushes imm and changes nothing else but pc and trace (41_stack.md
R61). -/
def Obligations.LoadConstantPushesItsImmediate : Prop :=
  ∀ (slot : Slot) (imm : Imm) (s : State), s.stk.length ≠ s.cfg.stackDepth →
    exec (.loadConstant slot imm) s = .next
      { s with
        stk := (imm.toNat : Int) :: s.stk
        pc := s.pc + 1
        trace := s.trace ++ [recordOf s (.loadConstant slot imm) (.push imm.toNat)] }

/-- LOAD_MEMORY replaces a valid address on top of the stack by the cell it names (41_stack.md R62). -/
def Obligations.LoadMemoryPushesTheAddressedCell : Prop :=
  ∀ (slot : Slot) (imm : Imm) (s : State) (cell : Nat) (rest : List Int),
    s.stk = (cell : Int) :: rest → cell < s.cfg.memSize →
    exec (.loadMemory slot imm) s = .next
      { s with
        stk := s.mem.read cell :: rest
        pc := s.pc + 1
        trace := s.trace ++ [recordOf s (.loadMemory slot imm) (.memLoad cell (s.mem.read cell))] }

/-- STORE_TO_MEMORY pops value and address, writes exactly that cell, and ignores its immediate (41_stack.md R63).
-/
def Obligations.StoreToMemoryWritesTheAddressedCell : Prop :=
  ∀ (slot : Slot) (imm : Imm) (s : State) (v : Int) (cell : Nat) (rest : List Int),
    s.stk = v :: (cell : Int) :: rest → cell < s.cfg.memSize →
    ∃ t, exec (.storeToMemory slot imm) s = .next t ∧ t.mem.read cell = v ∧
      (∀ a, a ≠ cell → t.mem.read a = s.mem.read a) ∧
      t = { s with
        stk := rest
        mem := t.mem
        pc := s.pc + 1
        trace := s.trace ++ [recordOf s (.storeToMemory slot imm) (.memStore cell v)] }

/-- GREATER pops b, then a, and pushes 1 if a > b as signed integers, else 0 (41_stack.md R64). -/
def Obligations.GreaterPushesTheSignedComparison : Prop :=
  ∀ (slot : Slot) (imm : Imm) (s : State) (a b : Int) (rest : List Int), s.stk = b :: a :: rest →
    (b < a → exec (.greater slot imm) s = .next
      { s with
        stk := 1 :: rest
        pc := s.pc + 1
        trace := s.trace ++ [recordOf s (.greater slot imm) (.compare a b 1)] }) ∧
    (a ≤ b → exec (.greater slot imm) s = .next
      { s with
        stk := 0 :: rest
        pc := s.pc + 1
        trace := s.trace ++ [recordOf s (.greater slot imm) (.compare a b 0)] })

/-- LOAD copies the cell at imm into the accumulator (42_accumulator.md R66). -/
def Obligations.LoadCopiesTheCellToTheAccumulator : Prop :=
  ∀ (slot : Slot) (imm : Imm) (s : State), imm.toNat < s.cfg.memSize →
    exec (.load slot imm) s = .next
      { s with
        acc := s.mem.read imm.toNat
        pc := s.pc + 1
        trace := s.trace ++ [recordOf s (.load slot imm) (.accLoad imm.toNat (s.mem.read imm.toNat))] }

/-- STORE copies the accumulator into exactly the cell at imm (42_accumulator.md R67). -/
def Obligations.StoreCopiesTheAccumulatorToTheCell : Prop :=
  ∀ (slot : Slot) (imm : Imm) (s : State), imm.toNat < s.cfg.memSize →
    ∃ t, exec (.store slot imm) s = .next t ∧ t.mem.read imm.toNat = s.acc ∧
      (∀ a, a ≠ imm.toNat → t.mem.read a = s.mem.read a) ∧
      t = { s with
        mem := t.mem
        pc := s.pc + 1
        trace := s.trace ++ [recordOf s (.store slot imm) (.accStore imm.toNat s.acc)] }

/-- ADD writes the exact sum of the accumulator and the cell when it lies in Val_W (42_accumulator.md R65,
42_accumulator.md R68). -/
def Obligations.AddWritesTheExactSum : Prop :=
  ∀ (slot : Slot) (imm : Imm) (s : State) (r : Int), imm.toNat < s.cfg.memSize →
    r = s.acc + s.mem.read imm.toNat → -2 ^ (s.cfg.w - 1) ≤ r → r ≤ 2 ^ (s.cfg.w - 1) - 1 →
    exec (.add slot imm) s = .next
      { s with
        acc := r
        pc := s.pc + 1
        trace := s.trace ++ [recordOf s (.add slot imm) (.accAdd imm.toNat (s.mem.read imm.toNat) r)] }

/-- SUB writes the accumulator minus the cell when it lies in Val_W (42_accumulator.md R65, 42_accumulator.md R69).
-/
def Obligations.SubWritesTheExactDifference : Prop :=
  ∀ (slot : Slot) (imm : Imm) (s : State) (r : Int), imm.toNat < s.cfg.memSize →
    r = s.acc - s.mem.read imm.toNat → -2 ^ (s.cfg.w - 1) ≤ r → r ≤ 2 ^ (s.cfg.w - 1) - 1 →
    exec (.sub slot imm) s = .next
      { s with
        acc := r
        pc := s.pc + 1
        trace := s.trace ++ [recordOf s (.sub slot imm) (.accSub imm.toNat (s.mem.read imm.toNat) r)] }

/-- JUMP sets pc to imm in every state, with no check and no other change than its record (43_control.md R70). -/
def Obligations.JumpSetsPcToItsTarget : Prop :=
  ∀ (slot : Slot) (imm : Imm) (s : State),
    exec (.jump slot imm) s = .next
      { s with
        pc := imm.toNat
        trace := s.trace ++ [recordOf s (.jump slot imm) (.jump imm.toNat)] }

/-- HALT sets run_state Halted and halt_reason HaltInstruction and keeps pc (43_control.md R71, 40_cycle.md R50).
That pc stays and that HALT leaves a record is the spec's own decision D15 (log 15). -/
def Obligations.HaltEndsTheExecutionInPlace : Prop :=
  ∀ (slot : Slot) (imm : Imm) (s : State),
    exec (.halt slot imm) s = .next
      { s with
        status := { s.status with runState := .halted, haltReason := .haltInstruction }
        trace := s.trace ++ [recordOf s (.halt slot imm) .halt] }

/-- No instruction is refused or stops the model: exec always answers a next state (40_cycle.md R50, 40_cycle.md
R52). -/
def Obligations.ExecAlwaysAnswersANextState : Prop :=
  ∀ (i : Instr) (s : State), ∃ t, exec i s = .next t

/-- LOAD_CONSTANT on a full stack takes StackOverflow (41_stack.md R61, 60_exceptions.md R72). -/
def Obligations.LoadConstantOverflowsAFullStack : Prop :=
  ∀ (slot : Slot) (imm : Imm) (s : State), s.stk.length = s.cfg.stackDepth →
    ∃ t, exec (.loadConstant slot imm) s = .next t ∧
      FaultTaken s t (encode s.cfg.opcodeMap (.loadConstant slot imm)) (some .loadConstant)
        (.stackOverflow s.stk.length)

/-- LOAD_MEMORY, STORE_TO_MEMORY and GREATER take StackUnderflow below 1, 2 and 2 entries, whatever the addresses
(41_stack.md R62, 41_stack.md R63, 41_stack.md R64, 60_exceptions.md R73). -/
def Obligations.PoppingTooFewEntriesUnderflows : Prop :=
  ∀ (slot : Slot) (imm : Imm) (s : State),
    (s.stk = [] → ∃ t, exec (.loadMemory slot imm) s = .next t ∧
      FaultTaken s t (encode s.cfg.opcodeMap (.loadMemory slot imm)) (some .loadMemory) (.stackUnderflow 0)) ∧
    (s.stk.length < 2 → ∃ t, exec (.storeToMemory slot imm) s = .next t ∧
      FaultTaken s t (encode s.cfg.opcodeMap (.storeToMemory slot imm)) (some .storeToMemory)
        (.stackUnderflow s.stk.length)) ∧
    (s.stk.length < 2 → ∃ t, exec (.greater slot imm) s = .next t ∧
      FaultTaken s t (encode s.cfg.opcodeMap (.greater slot imm)) (some .greater)
        (.stackUnderflow s.stk.length))

/-- LOAD_MEMORY and STORE_TO_MEMORY take InvalidAddress for a negative address or one at or past MEM_SIZE
(20_memory.md R24, 41_stack.md R62, 41_stack.md R63). -/
def Obligations.StackAddressOutsideMemoryFaults : Prop :=
  ∀ (slot : Slot) (imm : Imm) (s : State) (a : Int), (a < 0 ∨ (s.cfg.memSize : Int) ≤ a) →
    (∀ rest, s.stk = a :: rest → ∃ t, exec (.loadMemory slot imm) s = .next t ∧
      FaultTaken s t (encode s.cfg.opcodeMap (.loadMemory slot imm)) (some .loadMemory) (.invalidAddress a)) ∧
    (∀ v rest, s.stk = v :: a :: rest → ∃ t, exec (.storeToMemory slot imm) s = .next t ∧
      FaultTaken s t (encode s.cfg.opcodeMap (.storeToMemory slot imm)) (some .storeToMemory) (.invalidAddress a))

/-- LOAD, STORE, ADD and SUB take InvalidAddress when imm is at or past MEM_SIZE (20_memory.md R24, 20_memory.md
R25, 60_exceptions.md R73). -/
def Obligations.ImmediateAddressOutsideMemoryFaults : Prop :=
  ∀ (slot : Slot) (imm : Imm) (s : State) (i : Instr), s.cfg.memSize ≤ imm.toNat →
    i ∈ [Instr.load slot imm, Instr.store slot imm, Instr.add slot imm, Instr.sub slot imm] →
    ∃ t, exec i s = .next t ∧
      FaultTaken s t (encode s.cfg.opcodeMap i) (some i.mnemonic) (.invalidAddress imm.toNat)

/-- ADD and SUB take ArithmeticOverflow when the exact result leaves Val_W (42_accumulator.md R65,
42_accumulator.md R68, 42_accumulator.md R69). -/
def Obligations.ResultOutsideValWFaults : Prop :=
  ∀ (slot : Slot) (imm : Imm) (s : State) (r : Int), imm.toNat < s.cfg.memSize →
    (r < -2 ^ (s.cfg.w - 1) ∨ 2 ^ (s.cfg.w - 1) ≤ r) →
    (r = s.acc + s.mem.read imm.toNat → ∃ t, exec (.add slot imm) s = .next t ∧
      FaultTaken s t (encode s.cfg.opcodeMap (.add slot imm)) (some .add) (.arithmeticOverflow r)) ∧
    (r = s.acc - s.mem.read imm.toNat → ∃ t, exec (.sub slot imm) s = .next t ∧
      FaultTaken s t (encode s.cfg.opcodeMap (.sub slot imm)) (some .sub) (.arithmeticOverflow r))

/-- Fetching a word with an unassigned opcode takes UnknownOpcode (30_encoding.md R44, 40_cycle.md R50,
60_exceptions.md R74). -/
def Obligations.FetchingAnUnassignedOpcodeFaults : Prop :=
  ∀ (s : State) (w : Word), s.status.runState = .running → s.prog[s.pc]? = some w →
    s.cfg.traceDepth ≠ some s.trace.length → (∀ m, s.cfg.opcodeMap.code m ≠ opcField w) →
    ∃ t, step s = .next t ∧ FaultTaken s t w none (.unknownOpcode (opcField w))

/-- A full trace buffer raises TraceOverflow before fetch and appends no record; an unbounded one never does (R60).
-/
def Obligations.FullTraceBufferFaultsBeforeFetch : Prop :=
  (∀ s : State, s.status.runState = .running → s.pc < s.prog.length →
      s.cfg.traceDepth = some s.trace.length →
      step s = .next
        { s with
          status := { s.status with
            runState := .faulted, cause := .traceOverflow, faultPc := s.pc, faultOpcode := 0 } }) ∧
    ∀ s t : State, s.cfg.traceDepth = none → s.status.cause ≠ .traceOverflow → step s = .next t →
      t.status.cause ≠ .traceOverflow

/-- A faulting step changes neither pc, memory, program store, stack nor accumulator (60_exceptions.md R75,
60_exceptions.md R81). The clause on the stack and the accumulator is the spec's own choice D12 (log 10). -/
def Obligations.FaultsArePrecise : Prop :=
  ∀ s t : State, s.status.runState = .running → step s = .next t → t.status.runState = .faulted →
    t.pc = s.pc ∧ t.mem = s.mem ∧ t.prog = s.prog ∧ t.cfg = s.cfg ∧ t.stk = s.stk ∧ t.acc = s.acc

/-- The cause codes of the six faults are 1 to 6, none is 0, and 7 belongs to no fault (60_exceptions.md R72). -/
def Obligations.FaultCodesAreTheTablesNumbers : Prop :=
  (∀ opc, (CoreFault.unknownOpcode opc).cause.code = 1) ∧ (∀ n, (CoreFault.stackUnderflow n).cause.code = 2) ∧
    (∀ a, (CoreFault.invalidAddress a).cause.code = 3) ∧ (∀ n, (CoreFault.stackOverflow n).cause.code = 4) ∧
    (∀ r, (CoreFault.arithmeticOverflow r).cause.code = 5) ∧ CoreFault.traceOverflow.cause.code = 6 ∧
    Cause.none.code = 0 ∧ ∀ f : CoreFault, f.cause.code ≠ 7

/-- A Running core's step is exec of the instruction its fetched word decodes to (40_cycle.md R50, 40_cycle.md R51,
40_cycle.md R52). -/
def Obligations.StepRunsTheDecodedInstruction : Prop :=
  ∀ (s : State) (w : Word) (i : Instr), s.status.runState = .running → s.prog[s.pc]? = some w →
    s.cfg.traceDepth ≠ some s.trace.length → decode s.cfg.opcodeMap w = .ok i → step s = exec i s

/-- With pc at or past the program's end the step halts with RanOffEnd and appends no record (R54). -/
def Obligations.RunningOffTheEndHaltsCleanly : Prop :=
  ∀ s : State, s.status.runState = .running → s.prog.length ≤ s.pc →
    step s = .next { s with status := { s.status with runState := .halted, haltReason := .ranOffEnd } }

/-- No number of steps changes an Idle, Halted or Faulted core (40_cycle.md, section 3 (Sequencer and
termination)). That the step answers the same state, where the spec says the core takes no step, is the model's
choice (log 4). -/
def Obligations.RestingCoreStaysAsItIs : Prop :=
  ∀ (k : Nat) (s : State), s.status.runState ≠ .running → s.status.cause ≠ .reserved → RunsTo k s s

/-- A Faulted core that holds the reserved cause code 7 stops with the model's only fault, and no other core stops
(93_implementation_defined.md, section 1, row 19). Row 19 gives the first clause. The second is the model's choice:
a resting core answers itself (log 4), and every fault of R72 is taken as a next state, so that only this code
stops the model (log 5). -/
def Obligations.ReservedCauseStopsTheModel : Prop :=
  ∀ s : State,
    (s.status.runState = .faulted → s.status.cause = .reserved → step s = .fault .reservedCause) ∧
    (¬ (s.status.runState = .faulted ∧ s.status.cause = .reserved) → ∃ t, step s = .next t)

/-- pc: +1 after an instruction, imm after JUMP, unchanged after HALT and after a fault (R53). -/
def Obligations.PcFollowsTheSequencerRule : Prop :=
  ∀ s t : State, s.status.runState = .running → step s = .next t →
    (t.status.runState = .faulted → t.pc = s.pc) ∧
    ∀ w i, s.prog[s.pc]? = some w → decode s.cfg.opcodeMap w = .ok i → t.status.runState ≠ .faulted →
      (i.mnemonic = .jump → t.pc = i.imm.toNat) ∧ (i.mnemonic = .halt → t.pc = s.pc) ∧
      (i.mnemonic ≠ .jump → i.mnemonic ≠ .halt → t.pc = s.pc + 1)

/-- No run of any length changes the program store (R34). -/
def Obligations.ProgramStoreNeverChanges : Prop :=
  ∀ (k : Nat) (s t : State), RunsTo k s t → t.prog = s.prog

/-- A step appends exactly one record if it fetches a word, and none otherwise (40_cycle.md R57, 40_cycle.md R59).
-/
def Obligations.OneRecordPerFetchedWord : Prop :=
  ∀ s t : State, step s = .next t →
    ((s.status.runState = .running ∧ s.pc < s.prog.length ∧ s.cfg.traceDepth ≠ some s.trace.length) →
      ∃ r, t.trace = s.trace ++ [r] ∧ r.pc = s.pc ∧ s.prog[s.pc]? = some r.word ∧
        r.op = opOfWord s.cfg.opcodeMap r.word) ∧
    (¬ (s.status.runState = .running ∧ s.pc < s.prog.length ∧ s.cfg.traceDepth ≠ some s.trace.length) →
      t.trace = s.trace)

/-- The trace is append-only, and a core still Running after k steps has appended k records (40_cycle.md R59,
60_exceptions.md R83). -/
def Obligations.TraceCountsTheExecutedInstructions : Prop :=
  ∀ (k : Nat) (s t : State), RunsTo k s t →
    (∃ more, t.trace = s.trace ++ more ∧ more.length ≤ k) ∧
    (s.status.runState = .running → t.status.runState = .running → t.trace.length = s.trace.length + k)

/-- A JUMP to its own index runs forever with an unbounded trace and TraceOverflows with a finite one (40_cycle.md
R56, 43_control.md R70). -/
def Obligations.SelfJumpNeverEnds : Prop :=
  ∀ (s : State) (w : Word) (slot : Slot) (imm : Imm) (k : Nat), s.status.runState = .running →
    s.prog[s.pc]? = some w → decode s.cfg.opcodeMap w = .ok (.jump slot imm) → imm.toNat = s.pc →
    (s.cfg.traceDepth = none → ∃ t, RunsTo k s t ∧ t.status.runState = .running ∧ t.pc = s.pc ∧
      t.trace.length = s.trace.length + k) ∧
    (s.cfg.traceDepth = some (s.trace.length + k) → ∃ t, RunsTo (k + 1) s t ∧
      t.status.runState = .faulted ∧ t.status.cause = .traceOverflow ∧ t.trace.length = s.trace.length + k)

/-- A cell changes only by STORE at its address or STORE_TO_MEMORY with its address on the stack (10_state.md R18,
20_memory.md R23). -/
def Obligations.OnlyTheTwoStoresChangeACell : Prop :=
  ∀ (i : Instr) (s t : State) (a : Nat), exec i s = .next t → t.mem.read a ≠ s.mem.read a →
    a < s.cfg.memSize ∧
      ((i.mnemonic = .store ∧ i.imm.toNat = a) ∨
       (i.mnemonic = .storeToMemory ∧ ∃ v rest, s.stk = v :: (a : Int) :: rest))

/-- LOAD, STORE, ADD, SUB, JUMP and HALT neither read nor write the stack (10_state.md R15, 10_state.md R16). -/
def Obligations.RegisterSubsetBypassesTheStack : Prop :=
  ∀ (i : Instr) (s t : State) (k : List Int), inStackSubset i.mnemonic = false → exec i s = .next t →
    t.stk = s.stk ∧ exec i { s with stk := k } = .next { t with stk := k }

/-- LOAD_CONSTANT, LOAD_MEMORY, STORE_TO_MEMORY and GREATER neither read nor write the accumulator (10_state.md
R16). -/
def Obligations.StackSubsetBypassesTheAccumulator : Prop :=
  ∀ (i : Instr) (s t : State) (x : Int), inStackSubset i.mnemonic = true → exec i s = .next t →
    t.acc = s.acc ∧ exec i { s with acc := x } = .next { t with acc := x }

/-- Slot bits and unused imm bits change nothing but the word kept in the record (30_encoding.md R42, 10_state.md
R12). -/
def Obligations.DontCareBitsHaveNoEffect : Prop :=
  ∀ (i : Instr) (s : State), ∃ t u, exec i s = .next t ∧ exec i.clearDontCare s = .next u ∧
    t.forgetWords = u.forgetWords

/-- The depth of the stack changes by +1, 0, -2, -1 in the stack subset and by 0 in the register-style subset
(41_stack.md R61, 41_stack.md R62, 41_stack.md R63, 41_stack.md R64, 10_state.md R15). -/
def Obligations.StackDepthChangesByTheInstruction : Prop :=
  ∀ (i : Instr) (s t : State), s.status.runState = .running → exec i s = .next t →
    t.status.runState ≠ .faulted → (t.stk.length : Int) = s.stk.length + stackChange i.mnemonic

/-- A value stored through the stack is read by a LOAD of the same cell that follows (20_memory.md R32,
70_reset_and_hazards.md R90). -/
def Obligations.AStoredValueIsReadByTheNextInstruction : Prop :=
  ∀ (slot slot' : Slot) (imm imm' : Imm) (s : State) (v : Int) (rest : List Int),
    s.stk = v :: (imm'.toNat : Int) :: rest → imm'.toNat < s.cfg.memSize →
    ∃ t u, exec (.storeToMemory slot imm) s = .next t ∧ exec (.load slot' imm') t = .next u ∧ u.acc = v ∧
      u.status = s.status

/-- Every step keeps the invariant of the architectural state (10_state.md R13, 10_state.md R15, 10_state.md R18,
10_state.md R19, 10_state.md R21, 00_scope.md R7). -/
def Obligations.StepKeepsTheInvariant : Prop :=
  ∀ s t : State, Inv s → step s = .next t → Inv t

/-- Every host transaction keeps the invariant (60_exceptions.md R79, 40_cycle.md R49, 70_reset_and_hazards.md
R87). -/
def Obligations.HostTransactionsKeepTheInvariant : Prop :=
  ∀ (s : State) (x : Transaction), Inv s → Inv (transact x s).1

/-- The reset state, and power-on with any legal parameters, meet the invariants (70_reset_and_hazards.md R87,
70_reset_and_hazards.md R88). Which state State.reset is, is the model's choice (log 3), and its parameters are the
reference values (log 2). -/
def Obligations.ResetMeetsTheInvariants : Prop :=
  (Inv State.reset ∧ TraceFaithful State.reset ∧ MemoryIsLastStores State.reset ∧
      RegistersReplayTrace State.reset) ∧
    ∀ c : Config, c.legal = true → Inv (State.powerOn c) ∧ TraceFaithful (State.powerOn c) ∧
      MemoryIsLastStores (State.powerOn c) ∧ RegistersReplayTrace (State.powerOn c)

/-- Every state the block can reach, with any legal parameters, meets the invariant and never stops the model
(70_reset_and_hazards.md R88, 60_exceptions.md R79, 40_cycle.md R50). That the step of a resting core answers a
next state is the model's choice (log 4). -/
def Obligations.ReachableStatesMeetTheInvariant : Prop :=
  ∀ s : State, Reachable s → Inv s ∧ ∃ t, step s = .next t

/-- Every step keeps: each trace record holds the loaded word of its index and that word's operation (40_cycle.md
R57, 20_memory.md R34). -/
def Obligations.StepKeepsTheTraceFaithful : Prop :=
  ∀ s t : State, TraceFaithful s → step s = .next t → TraceFaithful t

/-- Every step keeps: a cell reads as the last store to it in this execution, or 0 (R32). -/
def Obligations.StepKeepsMemoryEqualToTheLastStores : Prop :=
  ∀ s t : State, MemoryIsLastStores s → step s = .next t → MemoryIsLastStores t

/-- Every step keeps: the stack and the accumulator are what the trace's effects make of the reset values
(40_cycle.md R58, 60_exceptions.md R75). On a faulting step this rests on the spec's own choice D12 (log 10). -/
def Obligations.StepKeepsRegistersEqualToTheReplay : Prop :=
  ∀ s t : State, RegistersReplayTrace s → step s = .next t → RegistersReplayTrace t

/-- At power-on the core is Idle with N = 0 and every element holds its execution-reset value (R88). -/
def Obligations.PowerOnIsIdleWithResetValues : Prop :=
  ∀ c : Config,
    (State.powerOn c).status =
      { runState := .idle, haltReason := .haltInstruction, cause := .none, faultPc := 0, faultOpcode := 0,
        truncated := false, droppedBytes := 0, progLen := 0 } ∧
    HaltReason.haltInstruction.code = 0 ∧ Cause.none.code = 0 ∧
    (State.powerOn c).prog.length = 0 ∧ (State.powerOn c).pc = 0 ∧ (State.powerOn c).stk = [] ∧
    (State.powerOn c).acc = 0 ∧ (∀ a, (State.powerOn c).mem.read a = 0) ∧ (State.powerOn c).trace = [] ∧
    ∀ s : State, s.executionReset.pc = (State.powerOn c).pc ∧ s.executionReset.stk = (State.powerOn c).stk ∧
      s.executionReset.acc = (State.powerOn c).acc ∧ s.executionReset.mem = (State.powerOn c).mem ∧
      s.executionReset.trace = (State.powerOn c).trace

/-- Start on a core that is not Running performs the execution reset; State.reset is, by the model's choice, that
of the powered-on reference block (70_reset_and_hazards.md R87, 10_state.md R20, 60_exceptions.md R79). The first
clause is R87. The second is the model's choice of State.reset (log 3), with the reference values (log 2). -/
def Obligations.StartPerformsTheExecutionReset : Prop :=
  (∀ s : State, s.status.runState ≠ .running → transact .start s =
      ({ cfg := s.cfg
         prog := s.prog
         pc := 0
         stk := []
         acc := 0
         mem := []
         status :=
          { runState := .running, haltReason := .haltInstruction, cause := .none, faultPc := 0, faultOpcode := 0,
            truncated := s.status.truncated, droppedBytes := s.status.droppedBytes,
            progLen := s.status.progLen }
         trace := [] }, .started)) ∧
    (transact .start (State.powerOn Config.reference)).1 = State.reset

/-- Two cores with the same program and load diagnostics run alike after Start, whatever ran before
(70_reset_and_hazards.md R87). -/
def Obligations.AnExecutionForgetsTheOneBefore : Prop :=
  ∀ (s s' t t' : State) (k : Nat), s.status.runState ≠ .running → s'.status.runState ≠ .running →
    s'.cfg = s.cfg → s'.prog = s.prog → s'.status.truncated = s.status.truncated →
    s'.status.droppedBytes = s.status.droppedBytes → s'.status.progLen = s.status.progLen →
    RunsTo k (transact .start s).1 t → RunsTo k (transact .start s').1 t' → t = t'

/-- Load of at most PROG_MAX words sets the program and all eight status fields, run_state to Idle; a larger image
is refused (40_cycle.md R49). Only the program store and the status record change. That a Load leaves Halted and
Faulted for Idle follows R49 against the words of R86, which is the model's choice (log 20). -/
def Obligations.LoadSetsTheProgramOrIsRefused : Prop :=
  ∀ (s : State) (b : List Byte), s.status.runState ≠ .running →
    (b.length / 4 ≤ s.cfg.progMax → ∃ t, transact (.load b) s = (t, .accepted) ∧
      t = { s with prog := wordsOfImage b, status := t.status } ∧
      t.prog.length = b.length / 4 ∧ t.status.progLen = b.length / 4 ∧
      (t.status.truncated = true ↔ b.length % 4 ≠ 0) ∧ t.status.droppedBytes.toNat = b.length % 4 ∧
      t.status.runState = .idle ∧ t.status.haltReason = .haltInstruction ∧ t.status.cause = .none ∧
      t.status.faultPc = 0 ∧ t.status.faultOpcode = 0) ∧
    (s.cfg.progMax < b.length / 4 → transact (.load b) s = (s, .loadRefused))

/-- While Running every transaction but ReadStatus is refused, and none changes the state (60_exceptions.md R79).
-/
def Obligations.ARunningCoreAnswersOnlyReadStatus : Prop :=
  ∀ (s : State) (x : Transaction), s.status.runState = .running →
    (x = .readStatus → transact x s = (s, .status s.status)) ∧ (x ≠ .readStatus → transact x s = (s, .refused))

/-- ReadDump returns each cell of its range in order, and refuses a range that is none (60_exceptions.md R80). -/
def Obligations.ReadDumpListsEveryCellInRange : Prop :=
  ∀ s : State, s.final = true →
    (∃ d, transact .readDumpAll s = (s, .dump d) ∧ d.length = s.cfg.memSize ∧
      ∀ i, i < s.cfg.memSize → d[i]? = some (i, s.mem.read i)) ∧
    (∀ first last : Nat, first ≤ last → last < s.cfg.memSize →
      ∃ d, transact (.readDump first last) s = (s, .dump d) ∧ d.length = last - first + 1 ∧
        ∀ k, first + k ≤ last → d[k]? = some (first + k, s.mem.read (first + k))) ∧
    ∀ first last : Int, (first < 0 ∨ last < first ∨ (s.cfg.memSize : Int) ≤ last) →
      transact (.readDump first last) s = (s, .refused)

/-- After Halted or Faulted, no transaction but Start, in any number, makes the core run; Start does
(60_exceptions.md R86, 60_exceptions.md R79, 40_cycle.md R55). Among those transactions a Load makes the core Idle,
as R49 and 10_state.md R20 say, where R86 says that only Start leaves Halted and Faulted: the model's choice (log
20). That the step of a resting core answers the same state is the model's choice too (log 4). -/
def Obligations.OnlyStartMakesAFinalCoreRun : Prop :=
  ∀ (s t : State) (xs : List Transaction), s.final = true → s.status.cause ≠ .reserved → .start ∉ xs →
    t = xs.foldl (fun u x => (transact x u).1) s →
    t.status.runState ≠ .running ∧ (∀ k, RunsTo k t t) ∧
      t = { s with prog := t.prog, status := t.status } ∧ ((∀ b, .load b ∉ xs) → t = s) ∧
      (transact .start t).1 = t.executionReset ∧ (transact .start t).1.status.runState = .running
end

