-- ==== Sys2Proof/Laws/Decode.lean ====
section
/-! SUPPORT. The fields of a packed word, and the opcode map as a lookup. -/

namespace Sys2Proof

@[simp] theorem opcField_packFields (opc : Opcode) (slot : Slot) (imm : Imm) :
    opcField (packFields opc slot imm) = opc := by
  apply BitVec.eq_of_getElem_eq
  intro j hj
  simp only [opcField, packFields, BitVec.getElem_extractLsb', BitVec.getLsbD_append]
  have h1 : ¬ 24 + j < 19 := by omega
  have h2 : ¬ 24 + j - 19 < 5 := by omega
  have h3 : 24 + j - 19 - 5 = j := by omega
  simp [h1, h2, h3, BitVec.getLsbD_eq_getElem hj]

@[simp] theorem slotField_packFields (opc : Opcode) (slot : Slot) (imm : Imm) :
    slotField (packFields opc slot imm) = slot := by
  apply BitVec.eq_of_getElem_eq
  intro j hj
  simp only [slotField, packFields, BitVec.getElem_extractLsb', BitVec.getLsbD_append]
  have h1 : ¬ 19 + j < 19 := by omega
  have h2 : 19 + j - 19 < 5 := by omega
  have h3 : 19 + j - 19 = j := by omega
  simp [h1, h3, hj]

@[simp] theorem immField_packFields (opc : Opcode) (slot : Slot) (imm : Imm) :
    immField (packFields opc slot imm) = imm := by
  apply BitVec.eq_of_getElem_eq
  intro j hj
  simp only [immField, packFields, BitVec.getElem_extractLsb', BitVec.getLsbD_append]
  simp [hj]

/-- A word is its three fields (30_encoding.md R37). -/
theorem packFields_fields (w : Word) : packFields (opcField w) (slotField w) (immField w) = w := by
  apply BitVec.eq_of_getLsbD_eq
  intro j hj
  simp only [packFields, opcField, slotField, immField, BitVec.getLsbD_append, BitVec.getLsbD_extractLsb']
  by_cases h1 : j < 19
  · simp [h1]
  · by_cases h2 : j - 19 < 5
    · have h3 : 19 + (j - 19) = j := by omega
      simp [h1, h2, h3]
    · have h3 : 24 + (j - 19 - 5) = j := by omega
      have h4 : j - 19 - 5 < 8 := by omega
      simp [h1, h2, h3, h4]

@[simp] theorem Instr.mnemonic_ofFields (m : Mnemonic) (slot : Slot) (imm : Imm) :
    (Instr.ofFields m slot imm).mnemonic = m := by cases m <;> rfl

@[simp] theorem Instr.slot_ofFields (m : Mnemonic) (slot : Slot) (imm : Imm) :
    (Instr.ofFields m slot imm).slot = slot := by cases m <;> rfl

@[simp] theorem Instr.imm_ofFields (m : Mnemonic) (slot : Slot) (imm : Imm) :
    (Instr.ofFields m slot imm).imm = imm := by cases m <;> rfl

@[simp] theorem Instr.ofFields_fields (i : Instr) : Instr.ofFields i.mnemonic i.slot i.imm = i := by cases i <;> rfl

theorem Mnemonic.mem_all (m : Mnemonic) : m ∈ Mnemonic.all := by cases m <;> decide

/-- The lookup gives only mnemonics with the opcode that was looked up. -/
theorem OpcodeMap.code_of_mnemonic? {o : OpcodeMap} {opc : Opcode} {m : Mnemonic} (h : o.mnemonic? opc = some m) :
    o.code m = opc := by
  simpa using List.find?_some h

theorem OpcodeMap.mnemonic?_eq_none_iff (o : OpcodeMap) (opc : Opcode) :
    o.mnemonic? opc = none ↔ ∀ m, o.code m ≠ opc := by
  simp only [OpcodeMap.mnemonic?, List.find?_eq_none, beq_iff_eq]
  exact ⟨fun h m => h m (Mnemonic.mem_all m), fun h m _ => h m⟩

/-- A legal map is injective (00_scope.md R6). -/
theorem OpcodeMap.code_injective {o : OpcodeMap} (h : o.legal = true) {m n : Mnemonic}
    (hmn : o.code m = o.code n) : m = n := by
  have hd : o.opcodes.Nodup := of_decide_eq_true h
  simp only [OpcodeMap.opcodes, List.nodup_cons, List.mem_cons, not_or, List.not_mem_nil, not_false_eq_true,
    List.nodup_nil, and_true] at hd
  obtain ⟨h0, h1, h2, h3, h4, h5, h6, h7, h8⟩ := hd
  cases m <;> cases n <;> first
    | rfl
    | (exfalso; simp only [OpcodeMap.code] at hmn; simp_all)

theorem OpcodeMap.mnemonic?_code {o : OpcodeMap} (h : o.legal = true) (m : Mnemonic) :
    o.mnemonic? (o.code m) = some m := by
  cases hm : o.mnemonic? (o.code m) with
  | none => exact absurd rfl ((OpcodeMap.mnemonic?_eq_none_iff _ _).mp hm m)
  | some n => rw [OpcodeMap.code_injective h (OpcodeMap.code_of_mnemonic? hm)]

/-- What the decoder answers, once: an instruction made of the word's fields, or the word's opcode as unknown. -/
theorem decode_cases (o : OpcodeMap) (w : Word) :
    (o.mnemonic? (opcField w) = none ∧ decode o w = .error (.unknownOpcode (opcField w))) ∨
    ∃ m, o.mnemonic? (opcField w) = some m ∧ decode o w = .ok (.ofFields m (slotField w) (immField w)) := by
  unfold decode
  cases o.mnemonic? (opcField w) with
  | none => exact .inl ⟨rfl, rfl⟩
  | some m => exact .inr ⟨m, rfl, rfl⟩

@[simp] theorem bytesOfWord_length (w : Word) : (bytesOfWord w).length = 4 := rfl

end Sys2Proof
end

