-- ==== Sys2Proof/Laws/Memory.lean ====
section
/-! SUPPORT. The data memory: a read after a write, and the canonical form that every operation keeps. -/

namespace Sys2Proof.Machine

@[simp] theorem Memory.read_nil (a : Nat) : Memory.read [] a = 0 := rfl

theorem Memory.read_cons (k : Nat) (v : Int) (m : Memory) (a : Nat) :
    Memory.read ((k, v) :: m) a = if k = a then v else m.read a := rfl

theorem Memory.read_erase_same (m : Memory) (a : Nat) : (m.erase a).read a = 0 := by
  induction m with
  | nil => rfl
  | cons c m ih =>
    obtain ⟨k, v⟩ := c
    by_cases h : k = a <;> simp_all [Memory.erase, Memory.read_cons]

theorem Memory.read_erase_other (m : Memory) {a b : Nat} (h : b ≠ a) : (m.erase a).read b = m.read b := by
  induction m with
  | nil => rfl
  | cons c m ih =>
    obtain ⟨k, v⟩ := c
    by_cases hk : k = a
    · have : ¬ k = b := by omega
      simp_all [Memory.erase, Memory.read_cons]
    · by_cases hb : k = b <;> simp_all [Memory.erase, Memory.read_cons]

theorem Memory.read_insertCell_same (m : Memory) (a : Nat) (v : Int) (h : ∀ c ∈ m, c.1 ≠ a) :
    (m.insertCell a v).read a = v := by
  induction m with
  | nil => simp [Memory.insertCell, Memory.read_cons]
  | cons c m ih =>
    obtain ⟨k, x⟩ := c
    have hk : k ≠ a := h (k, x) (by simp)
    have := ih fun c hc => h c (by simp [hc])
    by_cases hlt : a < k <;> simp [Memory.insertCell, Memory.read_cons, hlt, hk, this]

theorem Memory.read_insertCell_other (m : Memory) {a b : Nat} (v : Int) (h : b ≠ a) :
    (m.insertCell a v).read b = m.read b := by
  induction m with
  | nil => simp [Memory.insertCell, Memory.read_cons, Ne.symm h]
  | cons c m ih =>
    obtain ⟨k, x⟩ := c
    by_cases hlt : a < k <;> simp [Memory.insertCell, Memory.read_cons, hlt, ih, Ne.symm h]

theorem Memory.erase_key_ne (m : Memory) (a : Nat) : ∀ c ∈ m.erase a, c.1 ≠ a := by
  intro c hc
  simpa using (List.mem_filter.mp hc).2

/-- A read gives the last write to the same cell (20_memory.md R32). -/
@[simp] theorem Memory.read_write_same (m : Memory) (a : Nat) (v : Int) : (m.write a v).read a = v := by
  unfold Memory.write
  split
  · next h => rw [Memory.read_erase_same, h]; rfl
  · exact Memory.read_insertCell_same _ _ _ (Memory.erase_key_ne m a)

/-- A write leaves every other cell alone. -/
theorem Memory.read_write_other (m : Memory) {a b : Nat} (v : Int) (h : b ≠ a) :
    (m.write a v).read b = m.read b := by
  unfold Memory.write
  split
  · exact Memory.read_erase_other m h
  · rw [Memory.read_insertCell_other _ _ h, Memory.read_erase_other m h]

theorem Memory.mem_insertCell {m : Memory} {a : Nat} {v : Int} {c : Nat × Int}
    (h : c ∈ m.insertCell a v) : c = (a, v) ∨ c ∈ m := by
  induction m with
  | nil => simpa [Memory.insertCell] using h
  | cons d m ih =>
    obtain ⟨k, x⟩ := d
    simp only [Memory.insertCell] at h
    split at h
    · simpa using h
    · rcases List.mem_cons.mp h with rfl | h
      · simp
      · rcases ih h with rfl | h <;> simp_all

/-- Everything a write can list: the written cell, and what was listed before. -/
theorem Memory.mem_write {m : Memory} {a : Nat} {v : Int} {c : Nat × Int} (h : c ∈ m.write a v) :
    c = (a, v) ∧ v ≠ 0 ∨ c ∈ m := by
  unfold Memory.write at h
  split at h
  · exact .inr (List.mem_filter.mp h).1
  · next hv =>
    rcases Memory.mem_insertCell h with rfl | h
    · exact .inl ⟨rfl, hv⟩
    · exact .inr (List.mem_filter.mp h).1

theorem Memory.pairwise_insertCell {m : Memory} {a : Nat} {v : Int}
    (hm : m.Pairwise fun x y => x.1 < y.1) (ha : ∀ c ∈ m, c.1 ≠ a) :
    (m.insertCell a v).Pairwise fun x y => x.1 < y.1 := by
  induction m with
  | nil => simp [Memory.insertCell]
  | cons d m ih =>
    obtain ⟨k, x⟩ := d
    obtain ⟨hk, hm⟩ := List.pairwise_cons.mp hm
    have hne : k ≠ a := ha (k, x) (by simp)
    simp only [Memory.insertCell]
    split
    · next hlt =>
      refine List.pairwise_cons.mpr ⟨?_, List.pairwise_cons.mpr ⟨hk, hm⟩⟩
      intro c hc
      rcases List.mem_cons.mp hc with rfl | hc
      · exact hlt
      · exact lt_trans hlt (hk c hc)
    · next hlt =>
      refine List.pairwise_cons.mpr ⟨?_, ih hm fun c hc => ha c (by simp [hc])⟩
      intro c hc
      rcases Memory.mem_insertCell hc with rfl | hc
      · show k < a
        omega
      · exact hk c hc

theorem Memory.wf_iff (m : Memory) :
    m.wf = true ↔ (m.Pairwise fun x y => x.1 < y.1) ∧ ∀ c ∈ m, c.2 ≠ 0 := by
  simp [Memory.wf, Memory.unlisted]

@[simp] theorem Memory.wf_nil : Memory.wf [] = true := by decide

/-- The one write keeps the canonical form. -/
theorem Memory.wf_write {m : Memory} (h : m.wf = true) (a : Nat) (v : Int) : (m.write a v).wf = true := by
  rw [Memory.wf_iff] at h ⊢
  have hp : (m.erase a).Pairwise fun x y => x.1 < y.1 := h.1.filter _
  refine ⟨?_, fun c hc => ?_⟩
  · unfold Memory.write
    split
    · exact hp
    · exact Memory.pairwise_insertCell hp (Memory.erase_key_ne m a)
  · rcases Memory.mem_write hc with ⟨rfl, hv⟩ | hc
    · exact hv
    · exact h.2 c hc

end Sys2Proof.Machine
end

