-- ==== Sys2Proof/Laws/State.lean ====
section
/-! SUPPORT. What each update of the state leaves in each field. -/

namespace Sys2Proof.Machine

section Done

variable (s : State) (i : Instr) (e : Effect) (n : Nat)

@[simp] theorem State.done_cfg : (s.done i e n).cfg = s.cfg := rfl
@[simp] theorem State.done_prog : (s.done i e n).prog = s.prog := rfl
@[simp] theorem State.done_pc : (s.done i e n).pc = n := rfl
@[simp] theorem State.done_stk : (s.done i e n).stk = s.stk := rfl
@[simp] theorem State.done_acc : (s.done i e n).acc = s.acc := rfl
@[simp] theorem State.done_mem : (s.done i e n).mem = s.mem := rfl
@[simp] theorem State.done_status : (s.done i e n).status = s.status := rfl
@[simp] theorem State.done_trace :
    (s.done i e n).trace = s.trace ++ [⟨s.pc, encode s.cfg.opcodeMap i, some i.mnemonic, e⟩] := rfl

end Done

section TakeFault

variable (s : State) (f : CoreFault) (x : Option (Word × Option Mnemonic))

@[simp] theorem State.takeFault_cfg : (s.takeFault f x).cfg = s.cfg := by cases x <;> rfl
@[simp] theorem State.takeFault_prog : (s.takeFault f x).prog = s.prog := by cases x <;> rfl
@[simp] theorem State.takeFault_pc : (s.takeFault f x).pc = s.pc := by cases x <;> rfl
@[simp] theorem State.takeFault_stk : (s.takeFault f x).stk = s.stk := by cases x <;> rfl
@[simp] theorem State.takeFault_acc : (s.takeFault f x).acc = s.acc := by cases x <;> rfl
@[simp] theorem State.takeFault_mem : (s.takeFault f x).mem = s.mem := by cases x <;> rfl
@[simp] theorem State.takeFault_runState : (s.takeFault f x).status.runState = .faulted := by cases x <;> rfl
@[simp] theorem State.takeFault_haltReason : (s.takeFault f x).status.haltReason = s.status.haltReason := by
  cases x <;> rfl
@[simp] theorem State.takeFault_cause : (s.takeFault f x).status.cause = f.cause := by cases x <;> rfl
@[simp] theorem State.takeFault_faultPc : (s.takeFault f x).status.faultPc = s.pc := by cases x <;> rfl
@[simp] theorem State.takeFault_truncated : (s.takeFault f x).status.truncated = s.status.truncated := by
  cases x <;> rfl
@[simp] theorem State.takeFault_droppedBytes : (s.takeFault f x).status.droppedBytes = s.status.droppedBytes := by
  cases x <;> rfl
@[simp] theorem State.takeFault_progLen : (s.takeFault f x).status.progLen = s.status.progLen := by cases x <;> rfl
@[simp] theorem State.takeFault_faultOpcode_some (w : Word) (op : Option Mnemonic) :
    (s.takeFault f (some (w, op))).status.faultOpcode = opcField w := rfl
@[simp] theorem State.takeFault_faultOpcode_none : (s.takeFault f none).status.faultOpcode = 0 := rfl
@[simp] theorem State.takeFault_trace_some (w : Word) (op : Option Mnemonic) :
    (s.takeFault f (some (w, op))).trace = s.trace ++ [⟨s.pc, w, op, .fault f⟩] := rfl
@[simp] theorem State.takeFault_trace_none : (s.takeFault f none).trace = s.trace := rfl

end TakeFault

section Raise

variable (s : State) (i : Instr) (f : CoreFault)

@[simp] theorem State.raise_cfg : (s.raise i f).cfg = s.cfg := rfl
@[simp] theorem State.raise_prog : (s.raise i f).prog = s.prog := rfl
@[simp] theorem State.raise_pc : (s.raise i f).pc = s.pc := rfl
@[simp] theorem State.raise_stk : (s.raise i f).stk = s.stk := rfl
@[simp] theorem State.raise_acc : (s.raise i f).acc = s.acc := rfl
@[simp] theorem State.raise_mem : (s.raise i f).mem = s.mem := rfl
@[simp] theorem State.raise_status : (s.raise i f).status =
    { s.status with
      runState := .faulted
      cause := f.cause
      faultPc := s.pc
      faultOpcode := opcField (encode s.cfg.opcodeMap i) } := rfl
@[simp] theorem State.raise_trace :
    (s.raise i f).trace = s.trace ++ [⟨s.pc, encode s.cfg.opcodeMap i, some i.mnemonic, .fault f⟩] := rfl

end Raise

section RanOffEnd

variable (s : State)

@[simp] theorem State.ranOffEnd_cfg : s.ranOffEnd.cfg = s.cfg := rfl
@[simp] theorem State.ranOffEnd_prog : s.ranOffEnd.prog = s.prog := rfl
@[simp] theorem State.ranOffEnd_pc : s.ranOffEnd.pc = s.pc := rfl
@[simp] theorem State.ranOffEnd_stk : s.ranOffEnd.stk = s.stk := rfl
@[simp] theorem State.ranOffEnd_acc : s.ranOffEnd.acc = s.acc := rfl
@[simp] theorem State.ranOffEnd_mem : s.ranOffEnd.mem = s.mem := rfl
@[simp] theorem State.ranOffEnd_trace : s.ranOffEnd.trace = s.trace := rfl
@[simp] theorem State.ranOffEnd_status :
    s.ranOffEnd.status = { s.status with runState := .halted, haltReason := .ranOffEnd } := rfl

end RanOffEnd

section ExecutionReset

variable (s : State)

@[simp] theorem State.executionReset_cfg : s.executionReset.cfg = s.cfg := rfl
@[simp] theorem State.executionReset_prog : s.executionReset.prog = s.prog := rfl
@[simp] theorem State.executionReset_pc : s.executionReset.pc = 0 := rfl
@[simp] theorem State.executionReset_stk : s.executionReset.stk = [] := rfl
@[simp] theorem State.executionReset_acc : s.executionReset.acc = 0 := rfl
@[simp] theorem State.executionReset_mem : s.executionReset.mem = [] := rfl
@[simp] theorem State.executionReset_trace : s.executionReset.trace = [] := rfl
@[simp] theorem State.executionReset_runState : s.executionReset.status.runState = .running := rfl

end ExecutionReset

/-- The fixed reset state is the execution reset of the powered-on block with the reference parameters. -/
theorem executionReset_powerOn : (State.powerOn Config.reference).executionReset = State.reset := rfl

end Sys2Proof.Machine
end

