-- ==== Sys2Proof/Laws/Exec.lean ====
section
/-! SUPPORT. What each shared operation and each meaning can do, said once. -/

namespace Sys2Proof.Machine

@[simp] theorem opcField_encode (o : OpcodeMap) (i : Instr) : opcField (encode o i) = o.code i.mnemonic := by
  simp [encode]

/-- The address generator gives a cell exactly for an address in range, and it is that address
(20_memory.md R24). -/
theorem agen_eq_some_iff {c : Config} {a : Int} {cell : Nat} :
    agen c a = some cell ↔ a = (cell : Int) ∧ cell < c.memSize := by
  unfold agen
  split
  · next h =>
    constructor
    · intro e
      obtain rfl := Option.some.inj e
      constructor <;> omega
    · rintro ⟨rfl, -⟩
      rfl
  · next h =>
    constructor
    · intro e
      cases e
    · rintro ⟨rfl, hc⟩
      exact absurd ⟨by omega, by exact_mod_cast hc⟩ h

theorem agen_eq_none_iff {c : Config} {a : Int} : agen c a = none ↔ a < 0 ∨ (c.memSize : Int) ≤ a := by
  unfold agen
  split <;> simp <;> omega

theorem inRange_iff {w : Nat} {x : Int} : inRange w x = true ↔ -valLimit w ≤ x ∧ x ≤ valLimit w - 1 := by
  simp [inRange]

/-- The bounds of Val_W in a legal configuration: every immediate lies in it (00_scope.md R7). -/
theorem valLimit_ge {w : Nat} (h : 20 ≤ w) : 524288 ≤ valLimit w := by
  unfold valLimit
  have : 2 ^ 19 ≤ 2 ^ (w - 1) := Nat.pow_le_pow_right (by decide) (by omega)
  exact_mod_cast this

/-- Everything the accumulator ALU can do (42_accumulator.md R65). -/
theorem accArith_cases (i : Instr) (alu : Int → Int → Int) (record : Int → Int → Effect) (s : State) :
    (agen s.cfg (immValue i.imm) = none ∧
      accArith i alu record s = .next (s.raise i (.invalidAddress (immValue i.imm)))) ∨
    ∃ cell, agen s.cfg (immValue i.imm) = some cell ∧
      ((inRange s.cfg.w (alu s.acc (s.mem.read cell)) = true ∧
        accArith i alu record s =
          .next ({ s with acc := alu s.acc (s.mem.read cell) }.done i
            (record (s.mem.read cell) (alu s.acc (s.mem.read cell))) (s.pc + 1))) ∨
       (inRange s.cfg.w (alu s.acc (s.mem.read cell)) = false ∧
        accArith i alu record s = .next (s.raise i (.arithmeticOverflow (alu s.acc (s.mem.read cell)))))) := by
  unfold accArith
  cases agen s.cfg (immValue i.imm) with
  | none => exact .inl ⟨rfl, rfl⟩
  | some cell =>
    refine .inr ⟨cell, rfl, ?_⟩
    cases hr : inRange s.cfg.w (alu s.acc (s.mem.read cell)) with
    | true => exact .inl ⟨rfl, by simp [hr]⟩
    | false => exact .inr ⟨rfl, by simp [hr]⟩

/-- How an instruction that completes without HALT leaves the machine: new contents `k`, `a`, `m` of the stack, the
accumulator and the memory, one record with effect `e`, and pc at `n`. -/
def Completes (i : Instr) (s t : State) (k : List Int) (a : Int) (m : Memory) (e : Effect) (n : Nat) : Prop :=
  t = { s with stk := k, acc := a, mem := m }.done i e n

theorem execLoadConstant_cases (slot : Slot) (imm : Imm) (s : State) :
    (s.stk.length = s.cfg.stackDepth ∧
      execLoadConstant slot imm s = .next (s.raise (.loadConstant slot imm) (.stackOverflow s.stk.length))) ∨
    (s.stk.length ≠ s.cfg.stackDepth ∧ ∃ t, execLoadConstant slot imm s = .next t ∧
      Completes (.loadConstant slot imm) s t (immValue imm :: s.stk) s.acc s.mem (.push (immValue imm))
        (s.pc + 1)) := by
  unfold execLoadConstant
  split
  · next h => exact .inl ⟨h, rfl⟩
  · next h => exact .inr ⟨h, _, rfl, rfl⟩

theorem execLoadMemory_cases (slot : Slot) (imm : Imm) (s : State) :
    (s.stk = [] ∧ execLoadMemory slot imm s = .next (s.raise (.loadMemory slot imm) (.stackUnderflow 0))) ∨
    ∃ a rest, s.stk = a :: rest ∧
      ((agen s.cfg a = none ∧
        execLoadMemory slot imm s = .next (s.raise (.loadMemory slot imm) (.invalidAddress a))) ∨
       ∃ cell, agen s.cfg a = some cell ∧ ∃ t, execLoadMemory slot imm s = .next t ∧
        Completes (.loadMemory slot imm) s t (s.mem.read cell :: rest) s.acc s.mem (.memLoad a (s.mem.read cell))
          (s.pc + 1)) := by
  unfold execLoadMemory
  split
  · next h => exact .inl ⟨h, by rw [h]; rfl⟩
  · next a rest h =>
    refine .inr ⟨a, rest, h, ?_⟩
    cases agen s.cfg a with
    | none => exact .inl ⟨rfl, rfl⟩
    | some cell => exact .inr ⟨cell, rfl, _, rfl, rfl⟩

theorem execStoreToMemory_cases (slot : Slot) (imm : Imm) (s : State) :
    (s.stk.length < 2 ∧
      execStoreToMemory slot imm s = .next (s.raise (.storeToMemory slot imm) (.stackUnderflow s.stk.length))) ∨
    ∃ v a rest, s.stk = v :: a :: rest ∧
      ((agen s.cfg a = none ∧
        execStoreToMemory slot imm s = .next (s.raise (.storeToMemory slot imm) (.invalidAddress a))) ∨
       ∃ cell, agen s.cfg a = some cell ∧ ∃ t, execStoreToMemory slot imm s = .next t ∧
        Completes (.storeToMemory slot imm) s t rest s.acc (s.mem.write cell v) (.memStore a v) (s.pc + 1)) := by
  unfold execStoreToMemory
  rcases h : s.stk with _ | ⟨v, _ | ⟨a, rest⟩⟩
  · exact .inl ⟨by simp, rfl⟩
  · exact .inl ⟨by simp, rfl⟩
  · refine .inr ⟨v, a, rest, rfl, ?_⟩
    cases hg : agen s.cfg a with
    | none => exact .inl ⟨rfl, by simp [hg]⟩
    | some cell => exact .inr ⟨cell, rfl, _, by simp only [hg], rfl⟩

theorem execGreater_cases (slot : Slot) (imm : Imm) (s : State) :
    (s.stk.length < 2 ∧
      execGreater slot imm s = .next (s.raise (.greater slot imm) (.stackUnderflow s.stk.length))) ∨
    ∃ b a rest, s.stk = b :: a :: rest ∧ ∃ t, execGreater slot imm s = .next t ∧
      Completes (.greater slot imm) s t (greaterResult a b :: rest) s.acc s.mem
        (.compare a b (greaterResult a b)) (s.pc + 1) := by
  unfold execGreater
  rcases h : s.stk with _ | ⟨b, _ | ⟨a, rest⟩⟩
  · exact .inl ⟨by simp, rfl⟩
  · exact .inl ⟨by simp, rfl⟩
  · exact .inr ⟨b, a, rest, rfl, _, rfl, rfl⟩

theorem execLoad_cases (slot : Slot) (imm : Imm) (s : State) :
    (agen s.cfg (immValue imm) = none ∧
      execLoad slot imm s = .next (s.raise (.load slot imm) (.invalidAddress (immValue imm)))) ∨
    ∃ cell, agen s.cfg (immValue imm) = some cell ∧ ∃ t, execLoad slot imm s = .next t ∧
      Completes (.load slot imm) s t s.stk (s.mem.read cell) s.mem (.accLoad (immValue imm) (s.mem.read cell))
        (s.pc + 1) := by
  unfold execLoad
  cases agen s.cfg (immValue imm) with
  | none => exact .inl ⟨rfl, rfl⟩
  | some cell => exact .inr ⟨cell, rfl, _, rfl, rfl⟩

theorem execStore_cases (slot : Slot) (imm : Imm) (s : State) :
    (agen s.cfg (immValue imm) = none ∧
      execStore slot imm s = .next (s.raise (.store slot imm) (.invalidAddress (immValue imm)))) ∨
    ∃ cell, agen s.cfg (immValue imm) = some cell ∧ ∃ t, execStore slot imm s = .next t ∧
      Completes (.store slot imm) s t s.stk s.acc (s.mem.write cell s.acc) (.accStore (immValue imm) s.acc)
        (s.pc + 1) := by
  unfold execStore
  cases agen s.cfg (immValue imm) with
  | none => exact .inl ⟨rfl, rfl⟩
  | some cell => exact .inr ⟨cell, rfl, _, rfl, rfl⟩

/-- Everything the meanings can do, once (40_cycle.md R50, R52): an instruction takes a fault, or is HALT, or completes
with an effect `e` that says how stack, accumulator and memory changed. -/
theorem exec_cases (i : Instr) (s : State) :
    (∃ f, f ≠ .traceOverflow ∧ exec i s = .next (s.raise i f)) ∨
    (i.mnemonic = .halt ∧ exec i s = .next
      ({ s with status := { s.status with runState := .halted, haltReason := .haltInstruction } }.done i .halt
        s.pc)) ∨
    (i.mnemonic ≠ .halt ∧ ∃ t m e, exec i s = .next t ∧
      Completes i s t (e.stackAfter s.stk) (e.accAfter s.acc) m e
        (if i.mnemonic = .jump then i.imm.toNat else s.pc + 1) ∧
      ∀ b, m.read b = e.cellAfter b (s.mem.read b)) := by
  cases i with
  | loadConstant slot imm =>
    rcases execLoadConstant_cases slot imm s with ⟨_, h⟩ | ⟨_, t, h, hc⟩
    · exact .inl ⟨_, by simp, h⟩
    · exact .inr (.inr ⟨by simp [Instr.mnemonic], t, s.mem, .push (immValue imm), h, hc, fun _ => rfl⟩)
  | loadMemory slot imm =>
    rcases execLoadMemory_cases slot imm s with ⟨_, h⟩ | ⟨a, rest, hs, ⟨_, h⟩ | ⟨cell, _, t, h, hc⟩⟩
    · exact .inl ⟨_, by simp, h⟩
    · exact .inl ⟨_, by simp, h⟩
    · refine .inr (.inr ⟨by simp [Instr.mnemonic], t, s.mem, .memLoad a (s.mem.read cell), h, ?_, fun _ => rfl⟩)
      simpa [Effect.stackAfter, Effect.accAfter, hs, Instr.mnemonic] using hc
  | storeToMemory slot imm =>
    rcases execStoreToMemory_cases slot imm s with ⟨_, h⟩ | ⟨v, a, rest, hs, ⟨_, h⟩ | ⟨cell, ha, t, h, hc⟩⟩
    · exact .inl ⟨_, by simp, h⟩
    · exact .inl ⟨_, by simp, h⟩
    · refine .inr (.inr ⟨by simp [Instr.mnemonic], t, s.mem.write cell v, .memStore a v, h, ?_, fun b => ?_⟩)
      · simpa [Effect.stackAfter, Effect.accAfter, hs, Instr.mnemonic] using hc
      · obtain ⟨rfl, -⟩ := agen_eq_some_iff.mp ha
        by_cases hb : b = cell
        · simp [Effect.cellAfter, hb]
        · have : ¬ cell = b := fun h => hb h.symm
          simp [Effect.cellAfter, Memory.read_write_other _ _ hb, this]
  | greater slot imm =>
    rcases execGreater_cases slot imm s with ⟨_, h⟩ | ⟨b, a, rest, hs, t, h, hc⟩
    · exact .inl ⟨_, by simp, h⟩
    · refine .inr (.inr ⟨by simp [Instr.mnemonic], t, s.mem, .compare a b (greaterResult a b), h, ?_, fun _ => rfl⟩)
      simpa [Effect.stackAfter, Effect.accAfter, hs, Instr.mnemonic] using hc
  | load slot imm =>
    rcases execLoad_cases slot imm s with ⟨_, h⟩ | ⟨cell, _, t, h, hc⟩
    · exact .inl ⟨_, by simp, h⟩
    · exact .inr (.inr ⟨by simp [Instr.mnemonic], t, s.mem, .accLoad (immValue imm) (s.mem.read cell), h, hc,
        fun _ => rfl⟩)
  | store slot imm =>
    rcases execStore_cases slot imm s with ⟨_, h⟩ | ⟨cell, ha, t, h, hc⟩
    · exact .inl ⟨_, by simp, h⟩
    · refine .inr (.inr ⟨by simp [Instr.mnemonic], t, s.mem.write cell s.acc, .accStore (immValue imm) s.acc, h, hc,
        fun b => ?_⟩)
      have hi := (agen_eq_some_iff.mp ha).1
      by_cases hb : b = cell
      · simp [Effect.cellAfter, hi, hb]
      · have : ¬ cell = b := fun h => hb h.symm
        simp [Effect.cellAfter, hi, Memory.read_write_other _ _ hb, this]
  | add slot imm =>
    rcases accArith_cases (.add slot imm) (fun acc m => acc + m) (fun m r => .accAdd (immValue imm) m r) s with
      ⟨_, h⟩ | ⟨cell, _, ⟨_, h⟩ | ⟨_, h⟩⟩
    · exact .inl ⟨_, by simp, h⟩
    · exact .inr (.inr ⟨by simp [Instr.mnemonic], _, s.mem, .accAdd _ _ _, h, rfl, fun _ => rfl⟩)
    · exact .inl ⟨_, by simp, h⟩
  | sub slot imm =>
    rcases accArith_cases (.sub slot imm) (fun acc m => acc - m) (fun m r => .accSub (immValue imm) m r) s with
      ⟨_, h⟩ | ⟨cell, _, ⟨_, h⟩ | ⟨_, h⟩⟩
    · exact .inl ⟨_, by simp, h⟩
    · exact .inr (.inr ⟨by simp [Instr.mnemonic], _, s.mem, .accSub _ _ _, h, rfl, fun _ => rfl⟩)
    · exact .inl ⟨_, by simp, h⟩
  | jump slot imm => exact .inr (.inr ⟨by simp [Instr.mnemonic], _, s.mem, .jump imm.toNat, rfl, rfl, fun _ => rfl⟩)
  | halt slot imm => exact .inr (.inl ⟨rfl, rfl⟩)

/-- Everything a Running core's step can do (40_cycle.md R50). -/
theorem runningStep_cases (s : State) :
    (s.prog.length ≤ s.pc ∧ runningStep s = .next s.ranOffEnd) ∨
    ∃ w, s.prog[s.pc]? = some w ∧
      ((s.traceFull = true ∧ runningStep s = .next (s.takeFault .traceOverflow none)) ∨
       (s.traceFull = false ∧ s.cfg.opcodeMap.mnemonic? (opcField w) = none ∧
        runningStep s = .next (s.takeFault (.unknownOpcode (opcField w)) (some (w, none)))) ∨
       (s.traceFull = false ∧ ∃ i, decode s.cfg.opcodeMap w = .ok i ∧ runningStep s = exec i s)) := by
  unfold runningStep State.fetch
  cases hw : s.prog[s.pc]? with
  | none => exact .inl ⟨List.getElem?_eq_none_iff.mp hw, rfl⟩
  | some w =>
    refine .inr ⟨w, rfl, ?_⟩
    cases ht : s.traceFull with
    | true => exact .inl ⟨rfl, by simp⟩
    | false =>
      rcases decode_cases s.cfg.opcodeMap w with ⟨hn, hd⟩ | ⟨m, hm, hd⟩
      · exact .inr (.inl ⟨rfl, hn, by simp [hd]⟩)
      · exact .inr (.inr ⟨rfl, _, hd, by simp [hd]⟩)

end Sys2Proof.Machine
end

