-- ==== Sys2Proof/Laws/HostInterface.lean ====
section
/-! SUPPORT. What a host transaction can do to the state, said once. -/

namespace Sys2Proof.Machine

/-- An accepted Load: the image fits, the program store holds its words, the core is Idle, and nothing but the program
store and the status record differs (40_cycle.md R49, 10_state.md R20). -/
theorem load_cases {s t : State} {b : List Byte} (h : s.load b = some t) :
    b.length / 4 ≤ s.cfg.progMax ∧ t = { s with prog := wordsOfImage b, status := t.status } ∧
      t.status.runState = .idle ∧ t.status.cause = .none := by
  unfold State.load at h
  split at h
  · cases h
  · next hb =>
    cases h
    exact ⟨Nat.le_of_not_lt hb, rfl, rfl, rfl⟩

/-- Everything a transaction can do to the state: nothing; an accepted Load; or the execution reset of Start. The last
two happen only to a core that is not Running (60_exceptions.md R79). -/
theorem transact_cases (x : Transaction) (s : State) :
    (transact x s).1 = s ∨
    (s.status.runState ≠ .running ∧
      ((∃ b, x = .load b ∧ s.load b = some (transact x s).1) ∨
       (x = .start ∧ (transact x s).1 = s.executionReset))) := by
  by_cases hr : s.status.runState = .running
  · left
    unfold transact
    cases x <;> simp [Transaction.allowed, Transaction.perform, hr]
  · unfold transact
    split
    · cases x with
      | load b =>
        cases hb : s.load b with
        | none => simp [Transaction.perform, hb]
        | some t => exact .inr ⟨hr, .inl ⟨b, rfl, by simp [Transaction.perform, hb]⟩⟩
      | start => exact .inr ⟨hr, .inr ⟨rfl, rfl⟩⟩
      | readStatus | readTrace | readDumpAll => exact .inl rfl
      | readDump first last => left; simp only [Transaction.perform]; split <;> rfl
    · exact .inl rfl

/-- Only Start makes a core Running (60_exceptions.md R86). -/
theorem transact_running {x : Transaction} {s : State} (hs : s.status.runState ≠ .running)
    (h : (transact x s).1.status.runState = .running) : x = .start := by
  rcases transact_cases x s with he | ⟨_, ⟨b, _, hb⟩ | ⟨hx, _⟩⟩
  · exact absurd (he ▸ h) hs
  · rw [(load_cases hb).2.2.1] at h
    cases h
  · exact hx

end Sys2Proof.Machine
end

