-- ==== Sys2Proof/Laws/PerInstr.lean ====
section
/-! SUPPORT. The families stated instruction by instruction (LAWS.json, "per_instruction"). -/

namespace Sys2Proof.Laws

namespace EncodeFields

/-- Under every map, the word of an instruction holds its opcode, its slot and its imm at their places
(30_encoding.md R37). -/
def Statement (i : Instr) : Prop :=
  ∀ o : OpcodeMap, opcField (encode o i) = o.code i.mnemonic ∧ slotField (encode o i) = i.slot ∧
    immField (encode o i) = i.imm

theorem loadConstant (slot : Slot) (imm : Imm) : Statement (.loadConstant slot imm) := by
  intro o; simp [encode]
theorem loadMemory (slot : Slot) (imm : Imm) : Statement (.loadMemory slot imm) := by
  intro o; simp [encode]
theorem storeToMemory (slot : Slot) (imm : Imm) : Statement (.storeToMemory slot imm) := by
  intro o; simp [encode]
theorem greater (slot : Slot) (imm : Imm) : Statement (.greater slot imm) := by
  intro o; simp [encode]
theorem load (slot : Slot) (imm : Imm) : Statement (.load slot imm) := by
  intro o; simp [encode]
theorem store (slot : Slot) (imm : Imm) : Statement (.store slot imm) := by
  intro o; simp [encode]
theorem add (slot : Slot) (imm : Imm) : Statement (.add slot imm) := by
  intro o; simp [encode]
theorem sub (slot : Slot) (imm : Imm) : Statement (.sub slot imm) := by
  intro o; simp [encode]
theorem jump (slot : Slot) (imm : Imm) : Statement (.jump slot imm) := by
  intro o; simp [encode]
theorem halt (slot : Slot) (imm : Imm) : Statement (.halt slot imm) := by
  intro o; simp [encode]

end EncodeFields

end Sys2Proof.Laws
end

