-- ==== Sys2Proof/Laws/Step.lean ====
section
/-! SUPPORT. What a step and a run can do, said once. -/

namespace Sys2Proof.Machine

theorem traceFull_iff (s : State) : s.traceFull = true ↔ s.cfg.traceDepth = some s.trace.length := by
  unfold State.traceFull
  cases s.cfg.traceDepth with
  | none => simp
  | some d => simpa using eq_comm

theorem traceFull_false_iff (s : State) : s.traceFull = false ↔ s.cfg.traceDepth ≠ some s.trace.length := by
  rw [ne_eq, ← traceFull_iff, Bool.not_eq_true]

theorem step_of_running {s : State} (h : s.status.runState = .running) : step s = runningStep s := if_pos h

theorem step_of_resting {s : State} (h : s.status.runState ≠ .running) : step s = restingStep s := if_neg h

/-- Everything a step that answers a next state can have done: nothing on a core that is not Running; on a Running
core, running off the end, a fault before or at decoding, or the fetched instruction (40_cycle.md R50, R55). -/
theorem step_cases {s t : State} (h : step s = .next t) :
    (s.status.runState ≠ .running ∧ t = s ∧ ¬(s.status.runState = .faulted ∧ s.status.cause = .reserved)) ∨
    (s.status.runState = .running ∧
      ((s.prog.length ≤ s.pc ∧ t = s.ranOffEnd) ∨
       ∃ w, s.prog[s.pc]? = some w ∧
        ((s.traceFull = true ∧ t = s.takeFault .traceOverflow none) ∨
         (s.traceFull = false ∧ s.cfg.opcodeMap.mnemonic? (opcField w) = none ∧
          t = s.takeFault (.unknownOpcode (opcField w)) (some (w, none))) ∨
         (s.traceFull = false ∧ ∃ i, decode s.cfg.opcodeMap w = .ok i ∧ exec i s = .next t)))) := by
  by_cases hr : s.status.runState = .running
  · refine .inr ⟨hr, ?_⟩
    rw [step_of_running hr] at h
    rcases runningStep_cases s with ⟨hp, he⟩ | ⟨w, hw, ⟨ht, he⟩ | ⟨ht, hn, he⟩ | ⟨ht, i, hi, he⟩⟩ <;> rw [he] at h
    · cases h
      exact .inl ⟨hp, rfl⟩
    · cases h
      exact .inr ⟨w, hw, .inl ⟨ht, rfl⟩⟩
    · cases h
      exact .inr ⟨w, hw, .inr (.inl ⟨ht, hn, rfl⟩)⟩
    · exact .inr ⟨w, hw, .inr (.inr ⟨ht, i, hi, h⟩)⟩
  · refine .inl ⟨hr, ?_⟩
    rw [step_of_resting hr, restingStep] at h
    split at h
    · cases h
    · next hc =>
      cases h
      exact ⟨rfl, hc⟩

theorem runsTo_zero_iff {s t : State} : RunsTo 0 s t ↔ t = s := by
  constructor
  · intro h
    cases h
    rfl
  · rintro rfl
    rfl

/-- A run of `k + 1` steps is one step and a run of `k` steps. -/
theorem runsTo_succ_iff {k : Nat} {s t : State} :
    RunsTo (k + 1) s t ↔ ∃ u, step s = .next u ∧ RunsTo k u t := by
  have hs : Sys2Proof.core.step s = step s := rfl
  simp only [RunsTo, Host.Core.run]
  rw [hs]
  cases step s <;> simp

/-- No instruction changes the program store or the parameters (10_state.md R17). -/
theorem exec_prog_cfg {i : Instr} {s t : State} (h : exec i s = .next t) : t.prog = s.prog ∧ t.cfg = s.cfg := by
  rcases exec_cases i s with ⟨f, _, he⟩ | ⟨_, he⟩ | ⟨_, u, _, _, he, hc, _⟩ <;> rw [he] at h <;> cases h
  · exact ⟨rfl, rfl⟩
  · exact ⟨rfl, rfl⟩
  · rw [hc]
    exact ⟨rfl, rfl⟩

end Sys2Proof.Machine
end

