-- ==== Sys2Proof/Tests/Slice0.lean ====
section
/-! SUPPORT. The model's own tests: expected results are those of 95_test_vectors.md or follow by hand from the rule a
test names. The `witness_` theorems show, for each statement with hypotheses, concrete values that meet them all. -/

namespace Sys2Proof.Tests

open Sys2Proof.Machine

/-- The state an outcome answers, if it answers one. -/
def nextOf : Host.Outcome State Fault Refusal → Option State
  | .next t => some t
  | .fault _ => none
  | .refused _ => none

/-- A field of the next state. -/
def after {α : Type} (f : State → α) (o : Host.Outcome State Fault Refusal) : Option α := (nextOf o).map f

/-- The effect of the newest trace record. -/
def lastEffect (s : State) : Option Effect := s.trace.getLast?.map TraceRecord.effect

/-- A Running core with stack `k` (top first), accumulator `x`, memory `m` and program `p`. -/
def coreOf (p : List Word) (k : List Int) (x : Int) (m : Memory) : State :=
  { State.reset with
    prog := p
    stk := k
    acc := x
    mem := m
    status := { State.reset.status with progLen := p.length } }

/-! ### Well-formedness: an ill-formed term for each check -/

theorem test_wellFormed_refuses_slot : Instr.wellFormed (.greater 1 0) = false := by decide
theorem test_wellFormed_refuses_slot_jump : Instr.wellFormed (.jump 31 4) = false := by decide
theorem test_wellFormed_refuses_imm : Instr.wellFormed (.loadMemory 3 1) = false := by decide
theorem test_wellFormed_refuses_imm_halt : Instr.wellFormed (.halt 0 524287) = false := by decide
theorem test_wellFormed_accepts : Instr.wellFormed (.storeToMemory 31 524287) = true := by decide

/-! ### Decoding: words written out field by field, opc then slot then imm (30_encoding.md R37, R43) -/

theorem test_decode_loadConstant :
    (decode OpcodeMap.reference 0b00000001000000000000000000101010).toOption = some (.loadConstant 0 42) := by decide
theorem test_decode_loadMemory :
    (decode OpcodeMap.reference 0b00000010000110000000000000000000).toOption = some (.loadMemory 3 0) := by decide
theorem test_decode_storeToMemory :
    (decode OpcodeMap.reference 0b00000011100001111111111111111111).toOption = some (.storeToMemory 16 524287) := by
  decide
theorem test_decode_greater :
    (decode OpcodeMap.reference 0b00000100000000000000000000000000).toOption = some (.greater 0 0) := by decide
theorem test_decode_load :
    (decode OpcodeMap.reference 0b00010000000000000000001111111111).toOption = some (.load 0 1023) := by decide
theorem test_decode_store :
    (decode OpcodeMap.reference 0b00010001000000000000010000000000).toOption = some (.store 0 1024) := by decide
theorem test_decode_add :
    (decode OpcodeMap.reference 0b00010010000000000000000000000101).toOption = some (.add 0 5) := by decide
theorem test_decode_sub :
    (decode OpcodeMap.reference 0b00010011000000000000000000000010).toOption = some (.sub 0 2) := by decide
theorem test_decode_jump :
    (decode OpcodeMap.reference 0b00010100000001111111111111111111).toOption = some (.jump 0 524287) := by decide
theorem test_decode_halt :
    (decode OpcodeMap.reference 0b00010101111111111111111111111111).toOption = some (.halt 31 524287) := by decide
theorem test_decode_unknown_05 : (decode OpcodeMap.reference 0x05000000).toOption = none := by decide
theorem test_decode_unknown_16 : (decode OpcodeMap.reference 0x16000000).toOption = none := by decide
/-- 95_test_vectors.md E2. -/
theorem test_encode_boundary : encode OpcodeMap.reference (.loadConstant 31 524287) = 0x01FFFFFF := by decide
theorem test_encode_jump : encode OpcodeMap.reference (.jump 0 12) = 0x1400000C := by decide
/-- 95_test_vectors.md L1. -/
theorem test_image_words : wordsOfImage [0x01, 0, 0, 0x2A, 0x01, 0, 0, 0x11, 0x04, 0, 0, 0] =
    [0x0100002A, 0x01000011, 0x04000000] := by decide
/-- 95_test_vectors.md L2. -/
theorem test_image_partial_word : wordsOfImage [0x01, 0, 0] = [] := by decide
theorem test_decodeTableWord : decodeTableWord 32 0x12000005 = some (.add 0 5) := by decide
theorem test_decodeTableWord_unknown : decodeTableWord 32 0 = none := by decide

/-! ### One step of each instruction (95_test_vectors.md 2.3 to 2.5) -/

theorem test_S2 : after (fun t => (t.stk, t.pc, lastEffect t)) (exec (.loadConstant 0 524287) (coreOf [] [] 0 [])) =
    some ([524287], 1, some (.push 524287)) := by decide
/-- 95_test_vectors.md P7, its last step. -/
theorem test_P7 : after (fun t => (t.status.cause, lastEffect t, t.stk, t.pc))
    (exec (.loadConstant 0 1) { coreOf [] [1, 1] 0 [] with cfg := { Config.reference with stackDepth := 2 } }) =
    some (.stackOverflow, some (.fault (.stackOverflow 2)), [1, 1], 0) := by decide
theorem test_S6 : after (fun t => (t.stk, lastEffect t)) (exec (.loadMemory 0 0) (coreOf [] [1023] 0 [(1023, 9)])) =
    some ([9], some (.memLoad 1023 9)) := by decide
theorem test_S9 : after (fun t => (t.status.cause, lastEffect t)) (exec (.loadMemory 0 0) (coreOf [] [-1] 0 [])) =
    some (.invalidAddress, some (.fault (.invalidAddress (-1)))) := by decide
theorem test_S11 : after (fun t => (t.status.cause, lastEffect t)) (exec (.storeToMemory 0 0) (coreOf [] [2000] 0 [])) =
    some (.stackUnderflow, some (.fault (.stackUnderflow 1))) := by decide
theorem test_S15 : after (fun t => (t.stk, t.mem)) (exec (.storeToMemory 0 999) (coreOf [] [2, 1, 9] 0 [])) =
    some ([9], [(1, 2)]) := by decide
theorem test_S22 : after (fun t => (t.stk, lastEffect t)) (exec (.greater 0 0) (coreOf [] [0, -1] 0 [])) =
    some ([0], some (.compare (-1) 0 0)) := by decide
theorem test_S24 : after (fun t => t.stk) (exec (.greater 0 0) (coreOf [] [-2147483648, 2147483647] 0 [])) =
    some [1] := by decide
theorem test_A1 : after (fun t => (t.acc, lastEffect t)) (exec (.load 0 1023) (coreOf [] [] 0 [(1023, 4)])) =
    some (4, some (.accLoad 1023 4)) := by decide
theorem test_A2 : after (fun t => (t.acc, lastEffect t)) (exec (.load 0 1024) (coreOf [] [] 6 [])) =
    some (6, some (.fault (.invalidAddress 1024))) := by decide
theorem test_A4 : after (fun t => (t.acc, t.mem)) (exec (.store 0 0) (coreOf [] [] (-7) [])) =
    some (-7, [(0, -7)]) := by decide
theorem test_store_zero_clears : after (fun t => t.mem) (exec (.store 0 3) (coreOf [] [] 0 [(3, 5), (4, 1)])) =
    some [(4, 1)] := by decide
theorem test_A6 : after (fun t => (t.acc, lastEffect t)) (exec (.add 0 5) (coreOf [] [] 2147483647 [(5, 1)])) =
    some (2147483647, some (.fault (.arithmeticOverflow 2147483648))) := by decide
theorem test_A8 : after (fun t => t.acc) (exec (.add 0 5) (coreOf [] [] (-2147483648) [(5, 2147483647)])) =
    some (-1) := by decide
theorem test_A11 : after (fun t => (t.acc, lastEffect t)) (exec (.sub 0 2) (coreOf [] [] 0 [(2, 3)])) =
    some (-3, some (.accSub 2 3 (-3))) := by decide
theorem test_A12 : after (fun t => lastEffect t) (exec (.sub 0 2) (coreOf [] [] 0 [(2, -2147483648)])) =
    some (some (.fault (.arithmeticOverflow 2147483648))) := by decide
theorem test_C2 : after (fun t => (t.pc, t.trace)) (step (coreOf [0x14000001] [] 0 [])) =
    some (1, [⟨0, 0x14000001, some .jump, .jump 1⟩]) := by decide
theorem test_halt_in_place : after (fun t => (t.pc, t.status.runState, t.status.haltReason.code, t.trace))
    (step (coreOf [0x15FFFFFF] [] 0 [])) =
    some (0, .halted, 0, [⟨0, 0x15FFFFFF, some .halt, .halt⟩]) := by decide

/-! ### The cycle and the host (95_test_vectors.md 2.5, 2.6) -/

theorem test_C6 : after (fun t => (t.status.runState, t.status.haltReason, t.trace)) (step State.reset) =
    some (.halted, .ranOffEnd, []) := by decide
theorem test_C7 : after (fun t => (t.status.cause.code, t.status.faultOpcode, t.trace))
    (step (coreOf [0xFF000000] [] 0 [])) =
    some (1, 0xFF, [⟨0, 0xFF000000, none, .fault (.unknownOpcode 0xFF)⟩]) := by decide

/-- A core with TRACE_DEPTH = 1 whose buffer is full, at the JUMP 0 of 95_test_vectors.md T1. -/
def fullTrace : State :=
  { coreOf [0x14000000] [] 0 [] with
    cfg := { Config.reference with traceDepth := some 1 }
    trace := [⟨0, 0x14000000, some .jump, .jump 0⟩] }

theorem test_T1 : after (fun t => (t.status.cause.code, t.status.faultPc, t.status.faultOpcode, t.trace.length))
    (step fullTrace) = some (6, 0, 0, 1) := by decide
/-- 95_test_vectors.md T3: RanOffEnd is checked before TraceOverflow. -/
theorem test_T3 : after (fun t => t.status.haltReason) (step { fullTrace with pc := 1 }) = some .ranOffEnd := by
  decide
/-- 95_test_vectors.md E7. -/
theorem test_E7 :
    (transact (.load [0x15, 0, 0, 0, 0xAB]) (State.powerOn Config.reference)).1.status =
      { Status.powerOn with truncated := true, droppedBytes := 1, progLen := 1 } := by decide
theorem test_withFetchWord : after (fun t => (t.stk, t.pc)) (step (State.reset.withFetchWord 32 0x0100002A)) =
    some ([42], 1) := by decide
theorem test_pcWidth_reference : Config.reference.pcWidth = 20 := by decide
theorem test_config_reference_legal : Config.reference.legal = true := by decide
theorem test_config_refuses_shared_opcode :
    Config.legal { Config.reference with opcodeMap := { OpcodeMap.reference with halt := 0x14 } } = false := by decide
theorem test_config_refuses_w : Config.legal { Config.reference with w := 19 } = false := by decide
theorem test_config_refuses_memSize : Config.legal { Config.reference with memSize := 2147483649 } = false := by decide
theorem test_config_refuses_stackDepth : Config.legal { Config.reference with stackDepth := 1 } = false := by decide
theorem test_config_refuses_progMax : Config.legal { Config.reference with progMax := 0 } = false := by decide
theorem test_config_refuses_traceDepth : Config.legal { Config.reference with traceDepth := some 0 } = false := by
  decide
theorem test_reset_memory_wf : State.reset.mem.wf = true := by decide
theorem test_memory_wf_refuses_zero : Memory.wf [(3, 0)] = false := by decide
theorem test_memory_wf_refuses_order : Memory.wf [(3, 1), (3, 2)] = false := by decide

/-! ### Witnesses: concrete values that meet all hypotheses of a statement -/

theorem witness_DecodeOfEncodeGivesTheInstruction : OpcodeMap.reference.legal = true := by decide

theorem witness_EncodeOfDecodeGivesTheWord :
    (decode OpcodeMap.reference 0x0387FFFF).toOption = some (.storeToMemory 16 524287) := by decide

theorem witness_DecoderRefusesExactlyUnassignedOpcodes :
    decode OpcodeMap.reference 0x16000000 = .error (.unknownOpcode 0x16) := by rfl

theorem witness_ALegalMapLeaves246OpcodesIllegal :
    OpcodeMap.legal ⟨0, 1, 2, 3, 4, 5, 6, 7, 254, 255⟩ = true := by decide

theorem witness_ImageWordsAreBigEndian : 1 < ([0x15, 0, 0, 0, 0xFF, 0, 0, 0, 0xAB] : List Byte).length / 4 := by decide

theorem witness_ImageRoundTripDropsOnlyAPartialWord :
    ([1, 2, 3] : List Byte).length < 4 ∧ ([] : List Byte).length < 4 := by decide

theorem witness_LoadConstantPushesItsImmediate :
    (coreOf [] (List.replicate 255 0) 0 []).stk.length ≠ (coreOf [] (List.replicate 255 0) 0 []).cfg.stackDepth := by
  intro h
  have h255 : 255 = Config.reference.stackDepth :=
    (List.length_replicate : (List.replicate 255 (0 : Int)).length = 255).symm.trans h
  exact absurd h255 (by decide)

theorem witness_LoadMemoryPushesTheAddressedCell :
    (coreOf [] [1023, 4] 0 [(1023, 9)]).stk = ((1023 : Nat) : Int) :: [4] ∧
      1023 < (coreOf [] [1023, 4] 0 [(1023, 9)]).cfg.memSize := by decide

theorem witness_StoreToMemoryWritesTheAddressedCell :
    (coreOf [] [8, 1023] 0 []).stk = 8 :: ((1023 : Nat) : Int) :: [] ∧
      1023 < (coreOf [] [8, 1023] 0 []).cfg.memSize := by decide

theorem witness_GreaterPushesTheSignedComparison :
    ((coreOf [] [16, 17, 3] 0 []).stk = 16 :: 17 :: [3] ∧ (16 : Int) < 17) ∧
      ((coreOf [] [17, 17] 0 []).stk = 17 :: 17 :: [] ∧ (17 : Int) ≤ 17) := by decide

theorem witness_LoadCopiesTheCellToTheAccumulator : (1023 : Imm).toNat < (coreOf [] [] 0 []).cfg.memSize := by decide

theorem witness_StoreCopiesTheAccumulatorToTheCell : (1023 : Imm).toNat < (coreOf [] [] (-7) []).cfg.memSize := by decide

theorem witness_AddWritesTheExactSum :
    (5 : Imm).toNat < (coreOf [] [] 2147483646 [(5, 1)]).cfg.memSize ∧
    (2147483647 : Int) = (coreOf [] [] 2147483646 [(5, 1)]).acc +
      Memory.read (coreOf [] [] 2147483646 [(5, 1)]).mem (5 : Imm).toNat ∧
    -2 ^ (Config.reference.w - 1) ≤ (2147483647 : Int) ∧
    (2147483647 : Int) ≤ 2 ^ (Config.reference.w - 1) - 1 := by decide

theorem witness_SubWritesTheExactDifference :
    (2 : Imm).toNat < (coreOf [] [] (-2147483647) [(2, 1)]).cfg.memSize ∧
    (-2147483648 : Int) = (coreOf [] [] (-2147483647) [(2, 1)]).acc -
      Memory.read (coreOf [] [] (-2147483647) [(2, 1)]).mem (2 : Imm).toNat ∧
    -2 ^ (Config.reference.w - 1) ≤ (-2147483648 : Int) ∧
    (-2147483648 : Int) ≤ 2 ^ (Config.reference.w - 1) - 1 := by decide

theorem witness_LoadConstantOverflowsAFullStack :
    (coreOf [] (List.replicate 256 0) 0 []).stk.length = (coreOf [] (List.replicate 256 0) 0 []).cfg.stackDepth :=
  (List.length_replicate : (List.replicate 256 (0 : Int)).length = 256)

theorem witness_PoppingTooFewEntriesUnderflows :
    (coreOf [] [] 0 []).stk = [] ∧ (coreOf [] [2000] 0 []).stk.length < 2 := by decide

theorem witness_StackAddressOutsideMemoryFaults :
    ((-1 : Int) < 0 ∧ (coreOf [] [-1] 0 []).stk = -1 :: []) ∧
    (((coreOf [] [5, 1024] 0 []).cfg.memSize : Int) ≤ 1024 ∧ (coreOf [] [5, 1024] 0 []).stk = 5 :: 1024 :: []) := by decide

theorem witness_ImmediateAddressOutsideMemoryFaults :
    (coreOf [] [] 0 []).cfg.memSize ≤ (1024 : Imm).toNat ∧
      Instr.add 0 1024 ∈ [Instr.load 0 1024, Instr.store 0 1024, Instr.add 0 1024, Instr.sub 0 1024] := by decide

theorem witness_ResultOutsideValWFaults_add :
    (5 : Imm).toNat < (coreOf [] [] 2147483647 [(5, 1)]).cfg.memSize ∧
    (2 : Int) ^ (Config.reference.w - 1) ≤ 2147483648 ∧
    (2147483648 : Int) = (coreOf [] [] 2147483647 [(5, 1)]).acc +
      Memory.read (coreOf [] [] 2147483647 [(5, 1)]).mem (5 : Imm).toNat := by decide

theorem witness_ResultOutsideValWFaults_sub :
    (2 : Imm).toNat < (coreOf [] [] (-2147483648) [(2, 1)]).cfg.memSize ∧
    (-2147483649 : Int) < -2 ^ (Config.reference.w - 1) ∧
    (-2147483649 : Int) = (coreOf [] [] (-2147483648) [(2, 1)]).acc -
      Memory.read (coreOf [] [] (-2147483648) [(2, 1)]).mem (2 : Imm).toNat := by decide

theorem witness_FetchingAnUnassignedOpcodeFaults :
    (coreOf [0xFF000000] [] 0 []).status.runState = .running ∧
    (coreOf [0xFF000000] [] 0 []).prog[(coreOf [0xFF000000] [] 0 []).pc]? = some 0xFF000000 ∧
    (coreOf [0xFF000000] [] 0 []).cfg.traceDepth ≠ some (coreOf [0xFF000000] [] 0 []).trace.length ∧
    (∀ m, (coreOf [0xFF000000] [] 0 []).cfg.opcodeMap.code m ≠ opcField 0xFF000000) := by
  refine ⟨by decide, by decide, by decide, fun m => ?_⟩
  cases m <;> decide

theorem witness_FullTraceBufferFaultsBeforeFetch :
    (fullTrace.status.runState = .running ∧ fullTrace.pc < fullTrace.prog.length ∧
      fullTrace.cfg.traceDepth = some fullTrace.trace.length) ∧
    (State.reset.cfg.traceDepth = none ∧ State.reset.status.cause ≠ .traceOverflow ∧
      step State.reset = .next State.reset.ranOffEnd) := by
  exact ⟨by decide, by decide, by decide, rfl⟩

/-- The state that the TraceOverflow of 95_test_vectors.md T1 leaves. -/
def overflowed : State := fullTrace.takeFault .traceOverflow none

theorem witness_FaultsArePrecise :
    fullTrace.status.runState = .running ∧ step fullTrace = .next overflowed ∧
      overflowed.status.runState = .faulted := by
  exact ⟨by decide, rfl, by decide⟩

/-- The core of 95_test_vectors.md P6: JUMP 0 at index 0. -/
def selfJump : State := coreOf [0x14000000] [] 0 []

theorem witness_StepRunsTheDecodedInstruction :
    selfJump.status.runState = .running ∧ selfJump.prog[selfJump.pc]? = some 0x14000000 ∧
      selfJump.cfg.traceDepth ≠ some selfJump.trace.length ∧
      decode selfJump.cfg.opcodeMap 0x14000000 = .ok (.jump 0 0) := by
  exact ⟨by decide, by decide, by decide, rfl⟩

theorem witness_RunningOffTheEndHaltsCleanly :
    State.reset.status.runState = .running ∧ State.reset.prog.length ≤ State.reset.pc := by decide

theorem witness_RestingCoreStaysAsItIs :
    overflowed.status.runState ≠ .running ∧ overflowed.status.cause ≠ .reserved := by decide

/-- A Faulted core that holds the reserved cause. -/
def reservedCore : State := { overflowed with status := { overflowed.status with cause := .reserved } }

theorem witness_ReservedCauseStopsTheModel :
    (reservedCore.status.runState = .faulted ∧ reservedCore.status.cause = .reserved) ∧
      ¬(overflowed.status.runState = .faulted ∧ overflowed.status.cause = .reserved) := by decide

/-- The state after HALT at index 0. -/
def halted : State :=
  ({ coreOf [0x15000000] [] 0 [] with
      status := { (coreOf [0x15000000] [] 0 []).status with runState := .halted } }).done (.halt 0 0) .halt 0

/-- The state after STORE 3 at index 0 with accumulator 11. -/
def stored : State :=
  { coreOf [0x11000003] [] 11 [(3, 11)] with
    pc := 1
    trace := [⟨0, 0x11000003, some .store, .accStore 3 11⟩] }

theorem witness_PcFollowsTheSequencerRule_fault :
    fullTrace.status.runState = .running ∧ step fullTrace = .next overflowed ∧
      overflowed.status.runState = .faulted := by
  exact ⟨by decide, rfl, by decide⟩

theorem witness_PcFollowsTheSequencerRule_jump :
    step selfJump = .next { selfJump with trace := [⟨0, 0x14000000, some .jump, .jump 0⟩] } ∧
      Instr.mnemonic (.jump 0 0) = .jump := by
  exact ⟨rfl, by decide⟩

theorem witness_PcFollowsTheSequencerRule_halt :
    step (coreOf [0x15000000] [] 0 []) = .next halted ∧ halted.status.runState ≠ .faulted ∧
      Instr.mnemonic (.halt 0 0) = .halt := by
  exact ⟨rfl, by decide, by decide⟩

theorem witness_PcFollowsTheSequencerRule_store :
    step (coreOf [0x11000003] [] 11 []) = .next stored ∧ stored.status.runState ≠ .faulted ∧
      Instr.mnemonic (.store 0 3) ≠ .jump ∧ Instr.mnemonic (.store 0 3) ≠ .halt := by
  exact ⟨rfl, by decide, by decide, by decide⟩

theorem witness_ProgramStoreNeverChanges : RunsTo 2 (coreOf [0x11000003] [] 11 []) stored.ranOffEnd := by rfl

theorem witness_OneRecordPerFetchedWord :
    (step (coreOf [0x11000003] [] 11 []) = .next stored ∧
      (coreOf [0x11000003] [] 11 []).pc < (coreOf [0x11000003] [] 11 []).prog.length) ∧
    (step stored = .next stored.ranOffEnd ∧ ¬ stored.pc < stored.prog.length) := by
  exact ⟨⟨rfl, by decide⟩, rfl, by decide⟩

theorem witness_TraceCountsTheExecutedInstructions :
    RunsTo 1 (coreOf [0x11000003] [] 11 []) stored ∧ stored.status.runState = .running := by
  exact ⟨rfl, by decide⟩

theorem witness_SelfJumpNeverEnds :
    (selfJump.status.runState = .running ∧ selfJump.prog[selfJump.pc]? = some 0x14000000 ∧
      decode selfJump.cfg.opcodeMap 0x14000000 = .ok (.jump 0 0) ∧ (0 : Imm).toNat = selfJump.pc ∧
      selfJump.cfg.traceDepth = none) ∧
    fullTrace.cfg.traceDepth = some (fullTrace.trace.length + 0) := by
  exact ⟨⟨by decide, by decide, rfl, by decide, by decide⟩, by decide⟩

theorem witness_OnlyTheTwoStoresChangeACell :
    exec (.store 0 3) (coreOf [0x11000003] [] 11 []) = .next stored ∧
      stored.mem.read 3 ≠ (coreOf [0x11000003] [] 11 []).mem.read 3 := by
  exact ⟨rfl, by decide⟩

theorem witness_RegisterSubsetBypassesTheStack :
    inStackSubset (Instr.mnemonic (.store 0 3)) = false ∧
      exec (.store 0 3) (coreOf [0x11000003] [] 11 []) = .next stored := by
  exact ⟨by decide, rfl⟩

theorem witness_StackSubsetBypassesTheAccumulator :
    inStackSubset (Instr.mnemonic (.greater 0 0)) = true ∧ ∃ t, exec (.greater 0 0) (coreOf [] [1, 2] 5 []) = .next t := by
  exact ⟨by decide, _, rfl⟩

theorem witness_StackDepthChangesByTheInstruction :
    (coreOf [] [1, 2] 5 []).status.runState = .running ∧
      after (fun t => t.status.runState) (exec (.greater 0 0) (coreOf [] [1, 2] 5 [])) = some .running := by decide

theorem witness_AStoredValueIsReadByTheNextInstruction :
    (coreOf [] [8, 1023] 0 []).stk = 8 :: ((1023 : Imm).toNat : Int) :: [] ∧
      (1023 : Imm).toNat < (coreOf [] [8, 1023] 0 []).cfg.memSize := by decide

/-- The state after STORE 3 meets the invariant. -/
theorem stored_inv : Inv stored where
  config := by decide
  progFits := by decide
  pc := ⟨by decide, fun _ => by decide⟩
  data := ⟨by decide, by decide, by decide, by decide, by decide⟩
  status := ⟨by decide, by decide, by decide, by decide, by decide, by decide, by decide, by decide⟩
  traceFits := fun d h => absurd h (by simp [stored, coreOf, State.reset, State.powerOn, Config.reference])

theorem witness_StepKeepsTheInvariant : Inv stored ∧ step stored = .next stored.ranOffEnd := ⟨stored_inv, rfl⟩

theorem witness_HostTransactionsKeepTheInvariant : Inv stored := stored_inv

theorem witness_ResetMeetsTheInvariants :
    Config.legal
      { opcodeMap := ⟨0, 1, 2, 3, 4, 5, 6, 7, 254, 255⟩, w := 20, memSize := 524288, stackDepth := 2, progMax := 1,
        traceDepth := some 1 } = true := by decide

theorem witness_ReachableStatesMeetTheInvariant :
    Reachable (transact .start (State.powerOn Config.reference)).1 :=
  .host .start _ (.powerOn Config.reference (by decide))

theorem witness_StepKeepsTheTraceFaithful :
    TraceFaithful stored ∧ step stored = .next stored.ranOffEnd := by
  refine ⟨fun _ => ?_, rfl⟩
  decide

theorem witness_StepKeepsMemoryEqualToTheLastStores :
    MemoryIsLastStores stored ∧ step stored = .next stored.ranOffEnd := by
  refine ⟨fun a => ?_, rfl⟩
  show (if 3 = a then (11 : Int) else 0) = if (3 : Int) = (a : Int) then 11 else 0
  by_cases h : 3 = a
  · simp [← h]
  · have : ¬(3 : Int) = (a : Int) := by omega
    simp [h, this]

/-- The state after LOAD_CONSTANT 0 42 at index 0. -/
def pushed : State :=
  { coreOf [0x0100002A] [42] 0 [] with
    pc := 1
    trace := [⟨0, 0x0100002A, some .loadConstant, .push 42⟩] }

theorem witness_StepKeepsRegistersEqualToTheReplay :
    RegistersReplayTrace pushed ∧ step pushed = .next pushed.ranOffEnd := by
  exact ⟨⟨by decide, by decide⟩, rfl⟩

theorem witness_StartPerformsTheExecutionReset : overflowed.status.runState ≠ .running := by decide

theorem witness_AnExecutionForgetsTheOneBefore :
    halted.status.runState ≠ .running ∧ { halted with acc := 5, stk := [1] }.status.runState ≠ .running ∧
      halted ≠ { halted with acc := 5, stk := [1] } ∧
      RunsTo 0 (transact .start halted).1 (transact .start halted).1 ∧
      RunsTo 0 (transact .start { halted with acc := 5, stk := [1] }).1
        (transact .start { halted with acc := 5, stk := [1] }).1 := by
  exact ⟨by decide, by decide, by decide, rfl, rfl⟩

theorem witness_LoadSetsTheProgramOrIsRefused :
    halted.status.runState ≠ .running ∧ ([0x15, 0, 0, 0, 0xAB] : List Byte).length / 4 ≤ halted.cfg.progMax ∧
      { Config.reference with progMax := 1 }.progMax < (List.replicate 8 0 : List Byte).length / 4 := by decide

theorem witness_ARunningCoreAnswersOnlyReadStatus :
    selfJump.status.runState = .running ∧ Transaction.start ≠ .readStatus := by decide

theorem witness_ReadDumpListsEveryCellInRange :
    halted.final = true ∧ (0 ≤ 1023 ∧ 1023 < halted.cfg.memSize) ∧
      ((-1 : Int) < 0 ∧ (4 : Int) < 5 ∧ (halted.cfg.memSize : Int) ≤ 1024) := by decide

theorem witness_OnlyStartMakesAFinalCoreRun :
    halted.final = true ∧ overflowed.final = true ∧ overflowed.status.cause ≠ .reserved ∧
      Transaction.start ∉ [.readDumpAll, .load [0x15, 0, 0, 0], .readDumpAll] ∧
      ∀ b, Transaction.load b ∉ [.readStatus, .readDump 0 4] := by
  refine ⟨by decide, by decide, by decide, by decide, fun b h => ?_⟩
  rcases h with _ | ⟨_, _ | ⟨_, h⟩⟩
  cases h

/-- 40_cycle.md R49, 10_state.md R20: an accepted Load makes a Faulted core Idle and keeps its trace. -/
theorem test_load_after_fault :
    (transact (.load [0x15, 0, 0, 0]) overflowed).1.status.runState = .idle ∧
      (transact (.load [0x15, 0, 0, 0]) overflowed).1.trace = overflowed.trace := by decide

end Sys2Proof.Tests
end

/-! ## What an instruction commits to the stack, the accumulator and the memory -/

section

namespace Sys2Proof.Machine

/-- `u` is `s` with the writes of `i` to stack, accumulator and memory, and nothing else changed. A fault writes none
of the three (60_exceptions.md R75), and neither do JUMP and HALT. `exec_commits` ties it to `exec`. -/
inductive Commits (s : State) : Instr → State → Prop where
  | nothing (i : Instr) : Commits s i s
  | loadConstant (slot : Slot) (imm : Imm) (hd : s.stk.length ≠ s.cfg.stackDepth) :
      Commits s (.loadConstant slot imm) { s with stk := immValue imm :: s.stk }
  | loadMemory (slot : Slot) (imm : Imm) (cell : Nat) (rest : List Int) (hs : s.stk = (cell : Int) :: rest)
      (hc : cell < s.cfg.memSize) :
      Commits s (.loadMemory slot imm) { s with stk := s.mem.read cell :: rest }
  | storeToMemory (slot : Slot) (imm : Imm) (v : Int) (cell : Nat) (rest : List Int)
      (hs : s.stk = v :: (cell : Int) :: rest) (hc : cell < s.cfg.memSize) :
      Commits s (.storeToMemory slot imm) { s with stk := rest, mem := s.mem.write cell v }
  | greater (slot : Slot) (imm : Imm) (b a : Int) (rest : List Int) (hs : s.stk = b :: a :: rest) :
      Commits s (.greater slot imm) { s with stk := greaterResult a b :: rest }
  | load (slot : Slot) (imm : Imm) (hc : imm.toNat < s.cfg.memSize) :
      Commits s (.load slot imm) { s with acc := s.mem.read imm.toNat }
  | store (slot : Slot) (imm : Imm) (hc : imm.toNat < s.cfg.memSize) :
      Commits s (.store slot imm) { s with mem := s.mem.write imm.toNat s.acc }
  | add (slot : Slot) (imm : Imm) (hc : imm.toNat < s.cfg.memSize)
      (hr : inRange s.cfg.w (s.acc + s.mem.read imm.toNat) = true) :
      Commits s (.add slot imm) { s with acc := s.acc + s.mem.read imm.toNat }
  | sub (slot : Slot) (imm : Imm) (hc : imm.toNat < s.cfg.memSize)
      (hr : inRange s.cfg.w (s.acc - s.mem.read imm.toNat) = true) :
      Commits s (.sub slot imm) { s with acc := s.acc - s.mem.read imm.toNat }

/-- The cell that a direct operand names is the immediate (20_memory.md R25). -/
theorem agen_immValue_eq_some {c : Config} {imm : Imm} {cell : Nat} (h : agen c (immValue imm) = some cell) :
    cell = imm.toNat ∧ imm.toNat < c.memSize := by
  obtain ⟨heq, hlt⟩ := agen_eq_some_iff.mp h
  have : imm.toNat = cell := Int.ofNat.inj heq
  omega

/-- `t` holds the data of `u`: they differ at most in pc, trace and status. -/
def SameData (t u : State) : Prop := t = { u with pc := t.pc, trace := t.trace, status := t.status }

theorem exec_commits {i : Instr} {s t : State} (h : exec i s = .next t) : ∃ u, Commits s i u ∧ SameData t u := by
  cases i with
  | loadConstant slot imm =>
    rcases execLoadConstant_cases slot imm s with ⟨_, he⟩ | ⟨hd, u, he, hc⟩ <;> cases he.symm.trans h
    · exact ⟨s, .nothing _, rfl⟩
    · exact ⟨_, .loadConstant slot imm hd, by rw [hc]; rfl⟩
  | loadMemory slot imm =>
    rcases execLoadMemory_cases slot imm s with ⟨_, he⟩ | ⟨a, rest, hs, ⟨_, he⟩ | ⟨cell, ha, u, he, hc⟩⟩ <;>
      cases he.symm.trans h
    · exact ⟨s, .nothing _, rfl⟩
    · exact ⟨s, .nothing _, rfl⟩
    · obtain ⟨rfl, hlt⟩ := agen_eq_some_iff.mp ha
      exact ⟨_, .loadMemory slot imm cell rest hs hlt, by rw [hc]; rfl⟩
  | storeToMemory slot imm =>
    rcases execStoreToMemory_cases slot imm s with ⟨_, he⟩ | ⟨v, a, rest, hs, ⟨_, he⟩ | ⟨cell, ha, u, he, hc⟩⟩ <;>
      cases he.symm.trans h
    · exact ⟨s, .nothing _, rfl⟩
    · exact ⟨s, .nothing _, rfl⟩
    · obtain ⟨rfl, hlt⟩ := agen_eq_some_iff.mp ha
      exact ⟨_, .storeToMemory slot imm v cell rest hs hlt, by rw [hc]; rfl⟩
  | greater slot imm =>
    rcases execGreater_cases slot imm s with ⟨_, he⟩ | ⟨b, a, rest, hs, u, he, hc⟩ <;> cases he.symm.trans h
    · exact ⟨s, .nothing _, rfl⟩
    · exact ⟨_, .greater slot imm b a rest hs, by rw [hc]; rfl⟩
  | load slot imm =>
    rcases execLoad_cases slot imm s with ⟨_, he⟩ | ⟨cell, ha, u, he, hc⟩ <;> cases he.symm.trans h
    · exact ⟨s, .nothing _, rfl⟩
    · obtain ⟨rfl, hlt⟩ := agen_immValue_eq_some ha
      exact ⟨_, .load slot imm hlt, by rw [hc]; rfl⟩
  | store slot imm =>
    rcases execStore_cases slot imm s with ⟨_, he⟩ | ⟨cell, ha, u, he, hc⟩ <;> cases he.symm.trans h
    · exact ⟨s, .nothing _, rfl⟩
    · obtain ⟨rfl, hlt⟩ := agen_immValue_eq_some ha
      exact ⟨_, .store slot imm hlt, by rw [hc]; rfl⟩
  | add slot imm =>
    rcases accArith_cases (.add slot imm) (fun acc m => acc + m) (fun m r => .accAdd (immValue imm) m r) s with
      ⟨_, he⟩ | ⟨cell, ha, ⟨hr, he⟩ | ⟨_, he⟩⟩ <;> cases he.symm.trans h
    · exact ⟨s, .nothing _, rfl⟩
    · obtain ⟨rfl, hlt⟩ := agen_immValue_eq_some ha
      exact ⟨_, .add slot imm hlt hr, rfl⟩
    · exact ⟨s, .nothing _, rfl⟩
  | sub slot imm =>
    rcases accArith_cases (.sub slot imm) (fun acc m => acc - m) (fun m r => .accSub (immValue imm) m r) s with
      ⟨_, he⟩ | ⟨cell, ha, ⟨hr, he⟩ | ⟨_, he⟩⟩ <;> cases he.symm.trans h
    · exact ⟨s, .nothing _, rfl⟩
    · obtain ⟨rfl, hlt⟩ := agen_immValue_eq_some ha
      exact ⟨_, .sub slot imm hlt hr, rfl⟩
    · exact ⟨s, .nothing _, rfl⟩
  | jump slot imm =>
    cases h
    exact ⟨s, .nothing _, rfl⟩
  | halt slot imm =>
    cases h
    exact ⟨s, .nothing _, rfl⟩

theorem Memory.eq_of_read_write_ne {m : Memory} {a b : Nat} {v : Int} (h : (m.write a v).read b ≠ m.read b) :
    a = b := by
  by_contra hne
  exact h (Memory.read_write_other m v (Ne.symm hne))

/-- Settles O38: of the writes an instruction commits, only those of the two stores touch the memory, each at one
cell. -/
theorem onlyTheTwoStoresChangeACell : Obligations.OnlyTheTwoStoresChangeACell := by
  intro i s t a h hne
  obtain ⟨u, hu, ht⟩ := exec_commits h
  rw [ht] at hne
  cases hu with
  | storeToMemory slot imm v cell rest hs hc =>
    obtain rfl := Memory.eq_of_read_write_ne hne
    exact ⟨hc, .inr ⟨rfl, v, rest, hs⟩⟩
  | store slot imm hc =>
    obtain rfl := Memory.eq_of_read_write_ne hne
    exact ⟨hc, .inl ⟨rfl, rfl⟩⟩
  | nothing | loadConstant | loadMemory | greater | load | add | sub => exact absurd rfl hne

end Sys2Proof.Machine

end

/-! ## The invariant under the operations of the state -/

section

namespace Sys2Proof

theorem Config.legal_iff (c : Config) : c.legal = true ↔
    c.opcodeMap.legal = true ∧ 20 ≤ c.w ∧ 1 ≤ c.memSize ∧ c.memSize ≤ 2 ^ (c.w - 1) ∧ 2 ≤ c.stackDepth ∧
      1 ≤ c.progMax ∧ c.traceDepthLegal = true := by
  simp [Config.legal, and_assoc]

theorem Config.w_ge_of_legal {c : Config} (h : c.legal = true) : 20 ≤ c.w := by
  obtain ⟨_, hw, _⟩ := (Config.legal_iff c).mp h
  exact hw

end Sys2Proof

namespace Sys2Proof.Machine

/-! ### Values: Val_W holds 0, 1, every immediate and every cell (00_scope.md R7) -/

theorem inRange_immValue {w : Nat} (hw : 20 ≤ w) (imm : Imm) : inRange w (immValue imm) = true := by
  have hlim := valLimit_ge hw
  have himm := imm.isLt
  rw [inRange_iff, immValue]
  omega

theorem inRange_zero {w : Nat} (hw : 20 ≤ w) : inRange w 0 = true := inRange_immValue hw 0

theorem inRange_greaterResult {w : Nat} (hw : 20 ≤ w) (a b : Int) : inRange w (greaterResult a b) = true := by
  unfold greaterResult
  split
  · exact inRange_immValue hw 1
  · exact inRange_zero hw

theorem Memory.inRange_read {w : Nat} (hw : 20 ≤ w) {m : Memory} (h : ∀ c ∈ m, inRange w c.2 = true) (a : Nat) :
    inRange w (m.read a) = true := by
  induction m with
  | nil => exact inRange_zero hw
  | cons c m ih =>
    rw [List.forall_mem_cons] at h
    rw [Memory.read_cons]
    split
    · exact h.1
    · exact ih h.2

/-! ### The data -/

namespace DataInv

variable {s t : State}

theorem of_sameData {u : State} (hu : DataInv u) (h : SameData t u) : DataInv t := by
  rw [h]
  exact ⟨hu.stackDepth, hu.stackValues, hu.accValue, hu.memoryWf, hu.memoryCells⟩

theorem inRange_read (hd : DataInv s) (hw : 20 ≤ s.cfg.w) (a : Nat) : inRange s.cfg.w (s.mem.read a) = true :=
  Memory.inRange_read hw (fun c hc => (hd.memoryCells c hc).2) a

theorem setAcc (hd : DataInv s) {x : Int} (hx : inRange s.cfg.w x = true) : DataInv { s with acc := x } :=
  ⟨hd.stackDepth, hd.stackValues, hx, hd.memoryWf, hd.memoryCells⟩

theorem setStk (hd : DataInv s) {k : List Int} (hlen : k.length ≤ s.cfg.stackDepth)
    (hk : ∀ v ∈ k, inRange s.cfg.w v = true) : DataInv { s with stk := k } :=
  ⟨hlen, hk, hd.accValue, hd.memoryWf, hd.memoryCells⟩

theorem writeCell (hd : DataInv s) {cell : Nat} {v : Int} (hc : cell < s.cfg.memSize)
    (hv : inRange s.cfg.w v = true) : DataInv { s with mem := s.mem.write cell v } where
  stackDepth := hd.stackDepth
  stackValues := hd.stackValues
  accValue := hd.accValue
  memoryWf := Memory.wf_write hd.memoryWf cell v
  memoryCells c hmem := by
    rcases Memory.mem_write hmem with ⟨rfl, _⟩ | hold
    · exact ⟨hc, hv⟩
    · exact hd.memoryCells c hold

/-- Popping: any tail of the stack in its place. -/
theorem popTo (hd : DataInv s) {k rest : List Int} (hs : s.stk = k ++ rest) : DataInv { s with stk := rest } := by
  have hlen := hd.stackDepth
  have hvals := hd.stackValues
  rw [hs] at hlen hvals
  refine hd.setStk ?_ fun v hv => hvals v (List.mem_append_right k hv)
  rw [List.length_append] at hlen
  omega

/-- Popping at least one entry makes room for the one that is pushed. -/
theorem popPush (hd : DataInv s) {b v : Int} {k rest : List Int} (hs : s.stk = b :: k ++ rest)
    (hv : inRange s.cfg.w v = true) : DataInv { s with stk := v :: rest } := by
  have hlen := hd.stackDepth
  rw [hs] at hlen
  refine hd.setStk ?_ (List.forall_mem_cons.mpr ⟨hv, (hd.popTo hs).stackValues⟩)
  simp only [List.cons_append, List.length_cons, List.length_append] at hlen ⊢
  omega

theorem push (hd : DataInv s) {v : Int} (hroom : s.stk.length ≠ s.cfg.stackDepth)
    (hv : inRange s.cfg.w v = true) : DataInv { s with stk := v :: s.stk } :=
  hd.setStk (Nat.lt_of_le_of_ne hd.stackDepth hroom) (List.forall_mem_cons.mpr ⟨hv, hd.stackValues⟩)

/-- Every write an instruction commits is a value of Val_W, to a cell that exists or to a stack with room for it. -/
theorem of_commits {i : Instr} (hd : DataInv s) (hw : 20 ≤ s.cfg.w) (h : Commits s i t) : DataInv t := by
  cases h with
  | nothing => exact hd
  | loadConstant slot imm hroom => exact hd.push hroom (inRange_immValue hw imm)
  | loadMemory slot imm cell rest hs hc => exact hd.popPush (k := []) hs (hd.inRange_read hw cell)
  | storeToMemory slot imm v cell rest hs hc =>
    have hv : inRange s.cfg.w v = true := hd.stackValues v (by simp [hs])
    exact (hd.popTo (k := [v, cell]) hs).writeCell hc hv
  | greater slot imm b a rest hs => exact hd.popPush (k := [a]) hs (inRange_greaterResult hw a b)
  | load slot imm hc => exact hd.setAcc (hd.inRange_read hw imm.toNat)
  | store slot imm hc => exact hd.writeCell hc hd.accValue
  | add slot imm hc hr => exact hd.setAcc hr
  | sub slot imm hc hr => exact hd.setAcc hr

end DataInv

theorem exec_keeps_dataInv {i : Instr} {s t : State} (hd : DataInv s) (hw : 20 ≤ s.cfg.w)
    (h : exec i s = .next t) : DataInv t := by
  obtain ⟨u, hu, ht⟩ := exec_commits h
  exact (hd.of_commits hw hu).of_sameData ht

/-! ### The program counter -/

theorem lt_two_pow_pcWidth_of_le_progMax {c : Config} {n : Nat} (h : n ≤ c.progMax) : n < 2 ^ c.pcWidth :=
  calc n ≤ c.progMax := h
    _ < 2 ^ (c.progMax.log2 + 1) := Nat.lt_log2_self
    _ ≤ 2 ^ c.pcWidth := Nat.pow_le_pow_right (by decide) (Nat.le_max_right _ _)

theorem imm_lt_two_pow_pcWidth (c : Config) (imm : Imm) : imm.toNat < 2 ^ c.pcWidth :=
  Nat.lt_of_lt_of_le imm.isLt (Nat.pow_le_pow_right (by decide) (Nat.le_max_left _ _))

/-- What keeps pc in its bounds: it stays, or becomes an immediate, or an index up to the program's end
(10_state.md R13, 40_cycle.md R53). -/
theorem PcInv.of_next {s t : State} (h : PcInv s) (hr : s.status.runState = .running)
    (hfits : s.prog.length ≤ s.cfg.progMax) (hcfg : t.cfg = s.cfg) (hprog : t.prog = s.prog)
    (hpc : t.pc = s.pc ∨ (∃ imm : Imm, t.pc = imm.toNat) ∨ t.pc ≤ s.prog.length) : PcInv t := by
  have hbound := h.bound (by simp [hr])
  rcases hpc with hpc | ⟨imm, hpc⟩ | hpc
  · exact ⟨by rw [hpc, hcfg]; exact h.fits, fun _ => by rw [hpc, hprog]; exact hbound⟩
  · have himm := imm.isLt
    exact ⟨by rw [hpc]; exact imm_lt_two_pow_pcWidth _ imm, fun _ => by rw [hpc]; omega⟩
  · exact ⟨by rw [hcfg]; exact lt_two_pow_pcWidth_of_le_progMax (hpc.trans hfits), fun _ => by rw [hprog]; omega⟩

/-! ### The trace -/

theorem TraceFits.of_same {s t : State} (h : TraceFits s) (hcfg : t.cfg = s.cfg) (ht : t.trace = s.trace) :
    TraceFits t := by
  intro d hd
  rw [ht]
  exact h d (hcfg ▸ hd)

/-- A buffer that is not full has room for one record (10_state.md R21). -/
theorem TraceFits.of_append {s t : State} {r : TraceRecord} (h : TraceFits s) (hroom : s.traceFull = false)
    (hcfg : t.cfg = s.cfg) (ht : t.trace = s.trace ++ [r]) : TraceFits t := by
  intro d hd
  rw [hcfg] at hd
  have hne : d ≠ s.trace.length := fun e => (traceFull_false_iff s).mp hroom (e ▸ hd)
  have hle := h d hd
  rw [ht, List.length_append, List.length_singleton]
  omega

/-! ### The status record -/

theorem CoreFault.cause_ne_none (f : CoreFault) : f.cause ≠ .none := by cases f <;> simp [CoreFault.cause]

theorem CoreFault.cause_ne_reserved (f : CoreFault) : f.cause ≠ .reserved := by cases f <;> simp [CoreFault.cause]

theorem CoreFault.cause_eq_traceOverflow_iff (f : CoreFault) : f.cause = .traceOverflow ↔ f = .traceOverflow := by
  cases f <;> simp [CoreFault.cause]

namespace StatusInv

variable {s t : State}

theorem cause_of_running (h : StatusInv s) (hr : s.status.runState = .running) : s.status.cause = .none :=
  h.causeIffFaulted.mpr (by simp [hr])

theorem faultPc_of_running (h : StatusInv s) (hr : s.status.runState = .running) : s.status.faultPc = 0 :=
  h.faultPcZero (by simp [hr])

theorem faultOpcode_of_running (h : StatusInv s) (hr : s.status.runState = .running) : s.status.faultOpcode = 0 :=
  h.faultOpcodeZero (.inl (by simp [hr]))

theorem haltReason_of_running (h : StatusInv s) (hr : s.status.runState = .running) :
    s.status.haltReason = .haltInstruction := h.haltReasonOnlyHalted (by simp [hr])

/-- A Running core that keeps its status record: pc is free, because fault_pc means nothing yet. -/
theorem of_same (h : StatusInv s) (hr : s.status.runState = .running) (hprog : t.prog = s.prog)
    (ht : t.status = s.status) : StatusInv t where
  haltReasonOnlyHalted := ht ▸ h.haltReasonOnlyHalted
  causeIffFaulted := ht ▸ h.causeIffFaulted
  causeNotReserved := ht ▸ h.causeNotReserved
  faultPcOfFault hf := by simp [ht, hr] at hf
  faultPcZero := ht ▸ h.faultPcZero
  faultOpcodeZero := ht ▸ h.faultOpcodeZero
  truncatedIffDropped := ht ▸ h.truncatedIffDropped
  progLen := by rw [ht, hprog]; exact h.progLen

/-- A Running core that halts, for either reason (40_cycle.md R54, 43_control.md R71). -/
theorem of_halted {reason : HaltReason} (h : StatusInv s) (hr : s.status.runState = .running)
    (hprog : t.prog = s.prog) (ht : t.status = { s.status with runState := .halted, haltReason := reason }) :
    StatusInv t where
  haltReasonOnlyHalted hn := by simp [ht] at hn
  causeIffFaulted := by simp [ht, h.cause_of_running hr]
  causeNotReserved := by simp [ht, h.causeNotReserved]
  faultPcOfFault hf := by simp [ht] at hf
  faultPcZero _ := by simp [ht, h.faultPc_of_running hr]
  faultOpcodeZero _ := by simp [ht, h.faultOpcode_of_running hr]
  truncatedIffDropped := by simp [ht, h.truncatedIffDropped]
  progLen := by simp [ht, hprog, h.progLen]

/-- Taking a fault (60_exceptions.md R74): fault_opcode is left 0 exactly where TraceOverflow fetched no word. -/
theorem takeFault (h : StatusInv s) (hr : s.status.runState = .running) {f : CoreFault}
    {x : Option (Word × Option Mnemonic)} (hx : f = .traceOverflow → x = none) : StatusInv (s.takeFault f x) where
  haltReasonOnlyHalted _ := by simp [h.haltReason_of_running hr]
  causeIffFaulted := by simp [f.cause_ne_none]
  causeNotReserved := by simp [f.cause_ne_reserved]
  faultPcOfFault _ := by simp
  faultPcZero hn := by simp at hn
  faultOpcodeZero hz := by
    have hf : f = .traceOverflow := by simpa [f.cause_eq_traceOverflow_iff] using hz
    rw [hx hf, State.takeFault_faultOpcode_none]
  truncatedIffDropped := by simp [h.truncatedIffDropped]
  progLen := by simp [h.progLen]

end StatusInv

/-! ### The whole invariant, for each thing a Running core's step can do -/

namespace Inv

variable {s : State}

/-- The invariant of a state with the parameters and the program of one that has it, from its four moving parts. -/
theorem of_frame {t : State} (h : Inv s) (hcfg : t.cfg = s.cfg) (hprog : t.prog = s.prog) (pc : PcInv t)
    (data : DataInv t) (status : StatusInv t) (traceFits : TraceFits t) : Inv t where
  config := hcfg ▸ h.config
  progFits := by rw [hcfg, hprog]; exact h.progFits
  pc := pc
  data := data
  status := status
  traceFits := traceFits

theorem ranOffEnd (h : Inv s) (hr : s.status.runState = .running) : Inv s.ranOffEnd :=
  h.of_frame rfl rfl (h.pc.of_next hr h.progFits rfl rfl (.inl rfl)) (h.data.of_sameData rfl)
    (h.status.of_halted hr rfl rfl) (h.traceFits.of_same rfl rfl)

theorem takeTraceOverflow (h : Inv s) (hr : s.status.runState = .running) :
    Inv (s.takeFault .traceOverflow none) :=
  h.of_frame rfl rfl (h.pc.of_next hr h.progFits rfl rfl (.inl rfl)) (h.data.of_sameData rfl)
    (h.status.takeFault hr fun _ => rfl) (h.traceFits.of_same rfl rfl)

theorem takeFault_fetched (h : Inv s) (hr : s.status.runState = .running) (hroom : s.traceFull = false)
    {f : CoreFault} (hf : f ≠ .traceOverflow) (w : Word) (op : Option Mnemonic) :
    Inv (s.takeFault f (some (w, op))) :=
  h.of_frame rfl rfl (h.pc.of_next hr h.progFits rfl rfl (.inl rfl)) (h.data.of_sameData rfl)
    (h.status.takeFault hr fun e => absurd e hf) (h.traceFits.of_append hroom rfl rfl)

/-- Executing the instruction at an index of the program, with room for its record. -/
theorem of_exec {i : Instr} {t : State} (h : Inv s) (hr : s.status.runState = .running) (hroom : s.traceFull = false)
    (hpc : s.pc < s.prog.length) (he : exec i s = .next t) : Inv t := by
  have hdata : DataInv t := exec_keeps_dataInv h.data (Config.w_ge_of_legal h.config) he
  rcases exec_cases i s with ⟨f, hf, ho⟩ | ⟨_, ho⟩ | ⟨_, u, m, e, ho, hc, _⟩ <;> cases ho.symm.trans he
  · exact h.takeFault_fetched hr hroom hf _ _
  · exact h.of_frame rfl rfl (h.pc.of_next hr h.progFits rfl rfl (.inl rfl)) hdata
      (h.status.of_halted hr rfl rfl) (h.traceFits.of_append hroom rfl rfl)
  · have hnext : t.pc = s.pc ∨ (∃ imm : Imm, t.pc = imm.toNat) ∨ t.pc ≤ s.prog.length := by
      rw [hc, State.done_pc]
      split
      · exact .inr (.inl ⟨i.imm, rfl⟩)
      · exact .inr (.inr hpc)
    obtain ⟨hprog, hcfg⟩ := exec_prog_cfg he
    exact h.of_frame hcfg hprog (h.pc.of_next hr h.progFits hcfg hprog hnext) hdata
      (h.status.of_same hr hprog (by rw [hc]; rfl)) (h.traceFits.of_append hroom hcfg (by rw [hc]; rfl))

end Inv

/-- Settles O44, by the cases of a step: nothing, running off the end, a fault before or at decoding, or the fetched
instruction. -/
theorem stepKeepsTheInvariant : Obligations.StepKeepsTheInvariant := by
  intro s t h hstep
  rcases step_cases hstep with ⟨_, rfl, _⟩ | ⟨hr, ⟨_, rfl⟩ | ⟨w, hw, ⟨_, rfl⟩ | ⟨hroom, _, rfl⟩ | ⟨hroom, i, _, he⟩⟩⟩
  · exact h
  · exact h.ranOffEnd hr
  · exact h.takeTraceOverflow hr
  · exact h.takeFault_fetched hr hroom (by simp) w none
  · obtain ⟨hpc, _⟩ := List.getElem?_eq_some_iff.mp hw
    exact h.of_exec hr hroom hpc he

end Sys2Proof.Machine

end

/-! ## Each subset bypasses the other one's register -/

section

namespace Sys2Proof.Machine

/-- The outcome with its next state, if it answers one, put through `f`. -/
def mapNext (f : State → State) : Host.Outcome State Fault Refusal → Host.Outcome State Fault Refusal
  | .next t => .next (f t)
  | .fault r => .fault r
  | .refused r => .refused r

@[simp] theorem mapNext_next (f : State → State) (t : State) : mapNext f (.next t) = .next (f t) := rfl

section Stack

variable (slot : Slot) (imm : Imm) (s : State) (k : List Int)

theorem execLoad_setStk :
    execLoad slot imm { s with stk := k } = mapNext (fun t => { t with stk := k }) (execLoad slot imm s) := by
  unfold execLoad
  dsimp only
  cases agen s.cfg (immValue imm) with
  | none => rfl
  | some cell => rfl

theorem execStore_setStk :
    execStore slot imm { s with stk := k } = mapNext (fun t => { t with stk := k }) (execStore slot imm s) := by
  unfold execStore
  dsimp only
  cases agen s.cfg (immValue imm) with
  | none => rfl
  | some cell => rfl

theorem accArith_setStk (i : Instr) (alu : Int → Int → Int) (record : Int → Int → Effect) :
    accArith i alu record { s with stk := k } =
      mapNext (fun t => { t with stk := k }) (accArith i alu record s) := by
  unfold accArith
  dsimp only
  cases agen s.cfg (immValue i.imm) with
  | none => rfl
  | some cell =>
    dsimp only
    split
    · rfl
    · rfl

end Stack

/-- An instruction of the register-style subset does the same on any stack, and leaves that stack in place. -/
theorem exec_setStk {i : Instr} (hi : inStackSubset i.mnemonic = false) (s : State) (k : List Int) :
    exec i { s with stk := k } = mapNext (fun t => { t with stk := k }) (exec i s) := by
  cases i with
  | loadConstant | loadMemory | storeToMemory | greater => cases hi
  | load slot imm => exact execLoad_setStk slot imm s k
  | store slot imm => exact execStore_setStk slot imm s k
  | add slot imm => exact accArith_setStk s k _ _ _
  | sub slot imm => exact accArith_setStk s k _ _ _
  | jump slot imm => rfl
  | halt slot imm => rfl

/-- Settles O39: the next state with the stack `s` has in its place is the next state of `s` itself, so the stack is
unchanged. -/
theorem registerSubsetBypassesTheStack : Obligations.RegisterSubsetBypassesTheStack := by
  intro i s t k hi h
  have hcomm := exec_setStk hi s
  rw [h] at hcomm
  have hself : exec i s = .next { t with stk := s.stk } := hcomm s.stk
  have ht : t = { t with stk := s.stk } := Host.Outcome.next.inj (h.symm.trans hself)
  have hstk : t.stk = s.stk := by rw [ht]
  exact ⟨hstk, hcomm k⟩

section Accumulator

variable (slot : Slot) (imm : Imm) (s : State) (x : Int)

theorem execLoadConstant_setAcc : execLoadConstant slot imm { s with acc := x } =
    mapNext (fun t => { t with acc := x }) (execLoadConstant slot imm s) := by
  unfold execLoadConstant
  dsimp only
  split
  · rfl
  · rfl

theorem execLoadMemory_setAcc : execLoadMemory slot imm { s with acc := x } =
    mapNext (fun t => { t with acc := x }) (execLoadMemory slot imm s) := by
  obtain ⟨cfg, prog, pc, stk, acc, mem, status, trace⟩ := s
  cases stk with
  | nil => rfl
  | cons a rest =>
    unfold execLoadMemory
    dsimp only
    cases agen cfg a with
    | none => rfl
    | some cell => rfl

theorem execStoreToMemory_setAcc : execStoreToMemory slot imm { s with acc := x } =
    mapNext (fun t => { t with acc := x }) (execStoreToMemory slot imm s) := by
  obtain ⟨cfg, prog, pc, stk, acc, mem, status, trace⟩ := s
  rcases stk with _ | ⟨v, _ | ⟨a, rest⟩⟩
  · rfl
  · rfl
  · unfold execStoreToMemory
    dsimp only
    cases agen cfg a with
    | none => rfl
    | some cell => rfl

theorem execGreater_setAcc : execGreater slot imm { s with acc := x } =
    mapNext (fun t => { t with acc := x }) (execGreater slot imm s) := by
  obtain ⟨cfg, prog, pc, stk, acc, mem, status, trace⟩ := s
  rcases stk with _ | ⟨b, _ | ⟨a, rest⟩⟩
  · rfl
  · rfl
  · rfl

end Accumulator

/-- An instruction of the stack subset does the same with any accumulator, and leaves that accumulator in place. -/
theorem exec_setAcc {i : Instr} (hi : inStackSubset i.mnemonic = true) (s : State) (x : Int) :
    exec i { s with acc := x } = mapNext (fun t => { t with acc := x }) (exec i s) := by
  cases i with
  | loadConstant slot imm => exact execLoadConstant_setAcc slot imm s x
  | loadMemory slot imm => exact execLoadMemory_setAcc slot imm s x
  | storeToMemory slot imm => exact execStoreToMemory_setAcc slot imm s x
  | greater slot imm => exact execGreater_setAcc slot imm s x
  | load | store | add | sub | jump | halt => cases hi

/-- Settles O40: as O39, with the accumulator. -/
theorem stackSubsetBypassesTheAccumulator : Obligations.StackSubsetBypassesTheAccumulator := by
  intro i s t x hi h
  have hcomm := exec_setAcc hi s
  rw [h] at hcomm
  have hself : exec i s = .next { t with acc := s.acc } := hcomm s.acc
  have ht : t = { t with acc := s.acc } := Host.Outcome.next.inj (h.symm.trans hself)
  have hacc : t.acc = s.acc := by rw [ht]
  exact ⟨hacc, hcomm x⟩

end Sys2Proof.Machine

end

/-! ## The words of an image (20_memory.md R28, R29) -/

section

namespace Sys2Proof

theorem toNat_append_eq_add {m n : Nat} (x : BitVec m) (y : BitVec n) :
    (x ++ y).toNat = x.toNat * 2 ^ n + y.toNat := by
  rw [BitVec.toNat_append, ← Nat.shiftLeft_add_eq_or_of_lt y.isLt, Nat.shiftLeft_eq]

/-- A word is its four bytes, the first one most significant. -/
theorem append_bytes_of_word (w : Word) :
    w.extractLsb' 24 8 ++ w.extractLsb' 16 8 ++ w.extractLsb' 8 8 ++ w.extractLsb' 0 8 = w := by
  rw [BitVec.extractLsb'_append_extractLsb'_eq_extractLsb' (show 24 = 16 + 8 from rfl),
    BitVec.extractLsb'_append_extractLsb'_eq_extractLsb' (show 16 = 8 + 8 from rfl),
    BitVec.extractLsb'_append_extractLsb'_eq_extractLsb' (show 8 = 0 + 8 from rfl)]
  exact BitVec.extractLsb'_eq_self

theorem wordsOfImage_cons (b0 b1 b2 b3 : Byte) (rest : List Byte) :
    wordsOfImage (b0 :: b1 :: b2 :: b3 :: rest) = (b0 ++ b1 ++ b2 ++ b3) :: wordsOfImage rest := rfl

theorem length_lt_four_of_ne_cons {tail : List Byte}
    (h : ∀ b0 b1 b2 b3 rest, tail = b0 :: b1 :: b2 :: b3 :: rest → False) : tail.length < 4 := by
  rcases tail with _ | ⟨b0, _ | ⟨b1, _ | ⟨b2, _ | ⟨b3, rest⟩⟩⟩⟩
  · simp
  · simp
  · simp
  · simp
  · exact (h b0 b1 b2 b3 rest rfl).elim

/-- A partial trailing word gives no word. -/
theorem wordsOfImage_of_length_lt_four {tail : List Byte} (h : tail.length < 4) : wordsOfImage tail = [] := by
  unfold wordsOfImage
  split
  · simp only [List.length_cons] at h
    omega
  · rfl

theorem wordsOfImage_bytesOfWord_append (w : Word) (rest : List Byte) :
    wordsOfImage (bytesOfWord w ++ rest) = w :: wordsOfImage rest :=
  congrArg (· :: wordsOfImage rest) (append_bytes_of_word w)

theorem wordsOfImage_length (b : List Byte) : (wordsOfImage b).length = b.length / 4 := by
  induction b using wordsOfImage.induct with
  | case1 b0 b1 b2 b3 rest ih =>
    rw [wordsOfImage_cons]
    simp only [List.length_cons, ih]
    omega
  | case2 tail hshort =>
    have hlt := length_lt_four_of_ne_cons hshort
    rw [wordsOfImage_of_length_lt_four hlt, Nat.div_eq_of_lt hlt, List.length_nil]

/-- Word `i` is the bytes at `4i` to `4i + 3`, in that order. -/
theorem wordsOfImage_getElem? {b : List Byte} {i : Nat} (hi : i < b.length / 4) :
    ∃ b0 b1 b2 b3, b[4 * i]? = some b0 ∧ b[4 * i + 1]? = some b1 ∧ b[4 * i + 2]? = some b2 ∧
      b[4 * i + 3]? = some b3 ∧ (wordsOfImage b)[i]? = some (b0 ++ b1 ++ b2 ++ b3) := by
  induction b using wordsOfImage.induct generalizing i with
  | case1 b0 b1 b2 b3 rest ih =>
    cases i with
    | zero => exact ⟨b0, b1, b2, b3, rfl, rfl, rfl, rfl, rfl⟩
    | succ i =>
      have hrest : i < rest.length / 4 := by
        simp only [List.length_cons] at hi
        omega
      exact ih hrest
  | case2 tail hshort =>
    rw [Nat.div_eq_of_lt (length_lt_four_of_ne_cons hshort)] at hi
    exact absurd hi (Nat.not_lt_zero i)

theorem toNat_append_four_bytes (b0 b1 b2 b3 : Byte) :
    (b0 ++ b1 ++ b2 ++ b3).toNat =
      b0.toNat * 2 ^ 24 + b1.toNat * 2 ^ 16 + b2.toNat * 2 ^ 8 + b3.toNat := by
  simp only [toNat_append_eq_add]
  omega

/-- Settles O7: the words are read four bytes at a time, and appending bytes puts the first one highest. -/
theorem imageWordsAreBigEndian : Obligations.ImageWordsAreBigEndian := by
  intro b
  refine ⟨wordsOfImage_length b, fun i hi => ?_⟩
  obtain ⟨b0, b1, b2, b3, h0, h1, h2, h3, hw⟩ := wordsOfImage_getElem? hi
  exact ⟨_, b0, b1, b2, b3, hw, h0, h1, h2, h3, toNat_append_four_bytes b0 b1 b2 b3⟩

/-- Settles O8, by induction on the program. -/
theorem imageRoundTripDropsOnlyAPartialWord : Obligations.ImageRoundTripDropsOnlyAPartialWord := by
  intro ws tail htail
  induction ws with
  | nil => exact wordsOfImage_of_length_lt_four htail
  | cons w ws ih =>
    calc wordsOfImage (imageOfWords (w :: ws) ++ tail)
        = wordsOfImage (bytesOfWord w ++ (imageOfWords ws ++ tail)) := by rw [imageOfWords, List.append_assoc]
      _ = w :: wordsOfImage (imageOfWords ws ++ tail) := wordsOfImage_bytesOfWord_append w _
      _ = w :: ws := by rw [ih]

end Sys2Proof

end

/-! ## A cell reads as the last store the trace records (20_memory.md R32) -/

section

namespace Sys2Proof.Machine

theorem lastStored_concat (a : Nat) (t : List TraceRecord) (r : TraceRecord) :
    lastStored a (t ++ [r]) = r.effect.cellAfter a (lastStored a t) := by
  simp [lastStored, List.foldl_append]

namespace MemoryIsLastStores

variable {s t : State}

theorem of_same (h : MemoryIsLastStores s) (hmem : t.mem = s.mem) (htrace : t.trace = s.trace) :
    MemoryIsLastStores t := by
  intro a
  rw [hmem, htrace]
  exact h a

/-- One more record, whose effect says what became of every cell. -/
theorem of_append {r : TraceRecord} (h : MemoryIsLastStores s) (htrace : t.trace = s.trace ++ [r])
    (hread : ∀ a, t.mem.read a = r.effect.cellAfter a (s.mem.read a)) : MemoryIsLastStores t := by
  intro a
  rw [hread, htrace, lastStored_concat, h a]

theorem takeFault_fetched (h : MemoryIsLastStores s) (f : CoreFault) (w : Word) (op : Option Mnemonic) :
    MemoryIsLastStores (s.takeFault f (some (w, op))) :=
  h.of_append rfl fun _ => rfl

theorem of_exec {i : Instr} (h : MemoryIsLastStores s) (he : exec i s = .next t) : MemoryIsLastStores t := by
  rcases exec_cases i s with ⟨f, _, ho⟩ | ⟨_, ho⟩ | ⟨_, u, m, e, ho, hc, hread⟩ <;> cases ho.symm.trans he
  · exact h.takeFault_fetched f _ _
  · exact h.of_append rfl fun _ => rfl
  · rw [hc]
    exact h.of_append rfl hread

end MemoryIsLastStores

/-- Settles O49, by the cases of a step: what appends no record leaves the memory alone, and an appended record's
effect says what became of every cell. -/
theorem stepKeepsMemoryEqualToTheLastStores : Obligations.StepKeepsMemoryEqualToTheLastStores := by
  intro s t h hstep
  rcases step_cases hstep with ⟨_, rfl, _⟩ | ⟨_, ⟨_, rfl⟩ | ⟨w, _, ⟨_, rfl⟩ | ⟨_, _, rfl⟩ | ⟨_, i, _, he⟩⟩⟩
  · exact h
  · exact h.of_same rfl rfl
  · exact h.of_same rfl rfl
  · exact h.takeFault_fetched _ w none
  · exact h.of_exec he

end Sys2Proof.Machine

end

/-! ## The program store along a run (20_memory.md R34) -/

section

namespace Sys2Proof.Machine

theorem step_prog_cfg {s t : State} (h : step s = .next t) : t.prog = s.prog ∧ t.cfg = s.cfg := by
  rcases step_cases h with ⟨_, rfl, _⟩ | ⟨_, ⟨_, rfl⟩ | ⟨w, _, ⟨_, rfl⟩ | ⟨_, _, rfl⟩ | ⟨_, i, _, he⟩⟩⟩
  · exact ⟨rfl, rfl⟩
  · exact ⟨rfl, rfl⟩
  · exact ⟨rfl, rfl⟩
  · exact ⟨rfl, rfl⟩
  · exact exec_prog_cfg he

/-- Settles O34, by induction on the number of steps. -/
theorem programStoreNeverChanges : Obligations.ProgramStoreNeverChanges := by
  intro k
  induction k with
  | zero =>
    intro s t h
    rw [runsTo_zero_iff.mp h]
  | succ k ih =>
    intro s t h
    obtain ⟨u, hstep, hrun⟩ := runsTo_succ_iff.mp h
    exact (ih u t hrun).trans (step_prog_cfg hstep).1

end Sys2Proof.Machine

end

/-! ## The data access of an instruction, by what the address generator answers (20_memory.md R24, R25) -/

section

namespace Sys2Proof.Machine

theorem agen_natCast {c : Config} {cell : Nat} (h : cell < c.memSize) : agen c (cell : Int) = some cell :=
  agen_eq_some_iff.mpr ⟨rfl, h⟩

/-- An immediate address is never negative, so only MEM_SIZE bounds it (20_memory.md R25). -/
theorem agen_immValue_eq_none {c : Config} {imm : Imm} (h : c.memSize ≤ imm.toNat) :
    agen c (immValue imm) = none :=
  agen_eq_none_iff.mpr (.inr (Int.ofNat_le.mpr h))

theorem faultTaken_raise (s : State) (i : Instr) (f : CoreFault) :
    FaultTaken s (s.raise i f) (encode s.cfg.opcodeMap i) (some i.mnemonic) f :=
  ⟨rfl, rfl, rfl, rfl, rfl, rfl⟩

section

variable (slot : Slot) (imm : Imm) {s : State}

theorem execLoadMemory_of_no_cell {a : Int} {rest : List Int} (hs : s.stk = a :: rest) (ha : agen s.cfg a = none) :
    execLoadMemory slot imm s = .next (s.raise (.loadMemory slot imm) (.invalidAddress a)) := by
  simp [execLoadMemory, hs, ha]

theorem execStoreToMemory_of_no_cell {v a : Int} {rest : List Int} (hs : s.stk = v :: a :: rest)
    (ha : agen s.cfg a = none) :
    execStoreToMemory slot imm s = .next (s.raise (.storeToMemory slot imm) (.invalidAddress a)) := by
  simp [execStoreToMemory, hs, ha]

theorem execStoreToMemory_of_cell {v a : Int} {rest : List Int} {cell : Nat} (hs : s.stk = v :: a :: rest)
    (ha : agen s.cfg a = some cell) :
    execStoreToMemory slot imm s = .next ({ s with stk := rest, mem := s.mem.write cell v }.done
      (.storeToMemory slot imm) (.memStore a v) (s.pc + 1)) := by
  simp [execStoreToMemory, hs, ha]

theorem execLoad_of_no_cell (ha : agen s.cfg (immValue imm) = none) :
    execLoad slot imm s = .next (s.raise (.load slot imm) (.invalidAddress (immValue imm))) := by
  simp [execLoad, ha]

theorem execLoad_of_cell {cell : Nat} (ha : agen s.cfg (immValue imm) = some cell) :
    execLoad slot imm s = .next ({ s with acc := s.mem.read cell }.done (.load slot imm)
      (.accLoad (immValue imm) (s.mem.read cell)) (s.pc + 1)) := by
  simp [execLoad, ha]

theorem execStore_of_no_cell (ha : agen s.cfg (immValue imm) = none) :
    execStore slot imm s = .next (s.raise (.store slot imm) (.invalidAddress (immValue imm))) := by
  simp [execStore, ha]

end

theorem accArith_of_no_cell {i : Instr} {s : State} (alu : Int → Int → Int) (record : Int → Int → Effect)
    (ha : agen s.cfg (immValue i.imm) = none) :
    accArith i alu record s = .next (s.raise i (.invalidAddress (immValue i.imm))) := by
  simp [accArith, ha]

/-- Settles O22: the address generator gives no cell, and the fault is taken on what the instruction has not yet
changed. -/
theorem stackAddressOutsideMemoryFaults : Obligations.StackAddressOutsideMemoryFaults := by
  intro slot imm s a hout
  have ha : agen s.cfg a = none := agen_eq_none_iff.mpr hout
  constructor
  · intro rest hs
    exact ⟨_, execLoadMemory_of_no_cell slot imm hs ha, faultTaken_raise s _ _⟩
  · intro v rest hs
    exact ⟨_, execStoreToMemory_of_no_cell slot imm hs ha, faultTaken_raise s _ _⟩

/-- Settles O23: each of the four asks the address generator first. -/
theorem immediateAddressOutsideMemoryFaults : Obligations.ImmediateAddressOutsideMemoryFaults := by
  intro slot imm s i hout hi
  have ha : agen s.cfg (immValue imm) = none := agen_immValue_eq_none hout
  have hexec : exec i s = .next (s.raise i (.invalidAddress (immValue imm))) := by
    simp only [List.mem_cons, List.not_mem_nil, or_false] at hi
    rcases hi with rfl | rfl | rfl | rfl
    · exact execLoad_of_no_cell slot imm ha
    · exact execStore_of_no_cell slot imm ha
    · exact accArith_of_no_cell _ _ ha
    · exact accArith_of_no_cell _ _ ha
  exact ⟨_, hexec, faultTaken_raise s i _⟩

/-- Settles O43: the store writes the cell, and the load reads it from the memory the store leaves. -/
theorem aStoredValueIsReadByTheNextInstruction : Obligations.AStoredValueIsReadByTheNextInstruction := by
  intro slot slot' imm imm' s v rest hs hc
  have ha : agen s.cfg (immValue imm') = some imm'.toNat := agen_natCast hc
  exact ⟨_, _, execStoreToMemory_of_cell slot imm hs ha, execLoad_of_cell slot' imm' ha,
    Memory.read_write_same s.mem imm'.toNat v, rfl⟩

end Sys2Proof.Machine

end

/-! ## Decoder and encoder are inverse to each other (30_encoding.md R45) -/

section

namespace Sys2Proof

theorem decode_packFields {o : OpcodeMap} {opc : Opcode} {m : Mnemonic} (h : o.mnemonic? opc = some m) (slot : Slot)
    (imm : Imm) : decode o (packFields opc slot imm) = .ok (.ofFields m slot imm) := by
  simp [decode, h]

theorem decode_encode {o : OpcodeMap} (h : o.legal = true) (i : Instr) : decode o (encode o i) = .ok i :=
  calc decode o (encode o i)
      = .ok (.ofFields i.mnemonic i.slot i.imm) := decode_packFields (OpcodeMap.mnemonic?_code h i.mnemonic) _ _
    _ = .ok i := by rw [Instr.ofFields_fields]

/-- Settles O1: a legal map looks the opcode of a mnemonic up as that mnemonic, and the fields are carried. -/
theorem decodeOfEncodeGivesTheInstruction : Obligations.DecodeOfEncodeGivesTheInstruction :=
  fun _ i h => decode_encode h i

/-- A decoded instruction has the three fields of its word. -/
theorem fields_of_decode_eq_ok {o : OpcodeMap} {w : Word} {i : Instr} (h : decode o w = .ok i) :
    o.code i.mnemonic = opcField w ∧ i.slot = slotField w ∧ i.imm = immField w := by
  rcases decode_cases o w with ⟨_, he⟩ | ⟨m, hm, hi⟩
  · cases he.symm.trans h
  · cases hi.symm.trans h
    simpa using OpcodeMap.code_of_mnemonic? hm

theorem encode_of_decode_eq_ok {o : OpcodeMap} {w : Word} {i : Instr} (h : decode o w = .ok i) : encode o i = w := by
  obtain ⟨hopc, hslot, himm⟩ := fields_of_decode_eq_ok h
  rw [encode, hopc, hslot, himm, packFields_fields]

/-! ### The fields as arithmetic on the unsigned word (30_encoding.md R37) -/

theorem toNat_packFields (opc : Opcode) (slot : Slot) (imm : Imm) :
    (packFields opc slot imm).toNat = opc.toNat * 2 ^ 24 + slot.toNat * 2 ^ 19 + imm.toNat := by
  simp only [packFields, toNat_append_eq_add]
  omega

/-- Settles O3: appending the fields is their sum, each at its place. -/
theorem wordOfAnInstructionHasThreeFields : Obligations.WordOfAnInstructionHasThreeFields :=
  fun _ _ => toNat_packFields _ _ _

/-- The three fields of a word are the digits of its value, the slot and the imm below their bounds. -/
theorem toNat_fields (w : Word) :
    (opcField w).toNat = w.toNat / 2 ^ 24 ∧ (slotField w).toNat = w.toNat / 2 ^ 19 % 2 ^ 5 ∧
      (immField w).toNat = w.toNat % 2 ^ 19 := by
  have hw := toNat_packFields (opcField w) (slotField w) (immField w)
  rw [packFields_fields] at hw
  have hslot := (slotField w).isLt
  have himm := (immField w).isLt
  omega

/-- Settles O2: a decoded instruction has the fields of its word, and a word is its fields. -/
theorem encodeOfDecodeGivesTheWord : Obligations.EncodeOfDecodeGivesTheWord := by
  intro o w i h
  obtain ⟨hopc, hslot, himm⟩ := fields_of_decode_eq_ok h
  rw [hopc, hslot, himm]
  exact ⟨encode_of_decode_eq_ok h, toNat_fields w⟩

/-! ### Refused words (30_encoding.md R44) -/

theorem decode_eq_error_iff {o : OpcodeMap} {w : Word} {e : DecodeError} :
    decode o w = .error e ↔ (∀ m, o.code m ≠ opcField w) ∧ e = .unknownOpcode (opcField w) := by
  rw [← OpcodeMap.mnemonic?_eq_none_iff]
  rcases decode_cases o w with ⟨hn, hd⟩ | ⟨m, hm, hd⟩
  · simp [hd, hn, eq_comm]
  · simp [hd, hm]

/-- Settles O4: the only refusal is UnknownOpcode, and it needs a failed lookup. -/
theorem decoderRefusesExactlyUnassignedOpcodes : Obligations.DecoderRefusesExactlyUnassignedOpcodes := by
  intro o w
  refine ⟨⟨?_, fun h => ⟨_, decode_eq_error_iff.mpr ⟨h, rfl⟩⟩⟩, fun e he => (decode_eq_error_iff.mp he).2⟩
  rintro ⟨e, he⟩
  exact (decode_eq_error_iff.mp he).1

theorem decode_reference_of_encode {w : Word} {i : Instr} (hw : encode OpcodeMap.reference i = w) :
    decode OpcodeMap.reference w = .ok i := hw ▸ decode_encode (by decide) i

/-- Settles O6: each word is the encoding of its instruction under a legal map; no mnemonic has opcode 0. -/
theorem wordsOfTheSpecDecodeAsWritten : Obligations.WordsOfTheSpecDecodeAsWritten := by
  refine ⟨decode_reference_of_encode (by decide), decode_reference_of_encode (by decide),
    decode_reference_of_encode (by decide), decode_reference_of_encode (by decide),
    decode_reference_of_encode (by decide), decode_reference_of_encode (by decide),
    decode_reference_of_encode (by decide), decode_reference_of_encode (by decide),
    decode_reference_of_encode (by decide), decode_eq_error_iff.mpr ⟨fun m => ?_, by decide⟩⟩
  cases m <;> decide

end Sys2Proof

end

/-! ## The opcodes that a map leaves unassigned (30_encoding.md R44) -/

section

namespace Sys2Proof

namespace OpcodeMap

variable (o : OpcodeMap)

theorem mem_opcodes_iff {opc : Opcode} : opc ∈ o.opcodes ↔ ∃ m, o.code m = opc := by
  rw [show o.opcodes = Mnemonic.all.map o.code from rfl, List.mem_map]
  exact ⟨fun ⟨m, _, hm⟩ => ⟨m, hm⟩, fun ⟨m, hm⟩ => ⟨m, Mnemonic.mem_all m, hm⟩⟩

theorem mnemonic?_eq_none_iff_not_mem (opc : Opcode) : o.mnemonic? opc = none ↔ opc ∉ o.opcodes := by
  rw [mnemonic?_eq_none_iff, mem_opcodes_iff, not_exists]

theorem isSome_mnemonic?_iff (opc : Opcode) : (o.mnemonic? opc).isSome = true ↔ opc ∈ o.opcodes := by
  rw [Option.isSome_iff_ne_none, ne_eq, mnemonic?_eq_none_iff_not_mem, not_not]

/-- The assigned values of 0..255, as numbers. -/
def assigned : List Nat := (List.range 256).filter fun n => (o.mnemonic? (BitVec.ofNat 8 n)).isSome

theorem mem_assigned_iff {n : Nat} : n ∈ o.assigned ↔ n ∈ o.opcodes.map BitVec.toNat := by
  rw [assigned, List.mem_filter, List.mem_range, isSome_mnemonic?_iff, List.mem_map]
  constructor
  · rintro ⟨hn, hmem⟩
    exact ⟨_, hmem, (BitVec.toNat_ofNat n 8).trans (Nat.mod_eq_of_lt hn)⟩
  · rintro ⟨opc, hmem, rfl⟩
    exact ⟨opc.isLt, by rwa [BitVec.ofNat_toNat, BitVec.setWidth_eq]⟩

/-- A legal map's ten opcodes are distinct, so they are exactly the assigned values, each listed once. -/
theorem length_assigned {o : OpcodeMap} (h : o.legal = true) : o.assigned.length = 10 := by
  have hnodup : o.opcodes.Nodup := of_decide_eq_true h
  have hperm : o.assigned.Perm (o.opcodes.map BitVec.toNat) :=
    (List.perm_ext_iff_of_nodup (List.nodup_range.filter _) (hnodup.map BitVec.toNat_injective)).mpr
      fun _ => o.mem_assigned_iff
  rw [hperm.length_eq, List.length_map]
  rfl

theorem length_unassigned {o : OpcodeMap} (h : o.legal = true) :
    ((List.range 256).filter fun n => (o.mnemonic? (BitVec.ofNat 8 n)).isNone).length = 246 := by
  have hsplit := List.length_eq_length_filter_add (l := List.range 256)
    fun n => (o.mnemonic? (BitVec.ofNat 8 n)).isSome
  have hassigned := length_assigned h
  rw [assigned] at hassigned
  simp only [List.length_range, Option.not_isSome] at hsplit
  omega

theorem reference_mnemonic?_eq_none_iff (opc : Opcode) : reference.mnemonic? opc = none ↔
    opc.toNat = 0 ∨ (5 ≤ opc.toNat ∧ opc.toNat ≤ 15) ∨ 22 ≤ opc.toNat := by
  rw [mnemonic?_eq_none_iff_not_mem]
  simp only [opcodes, reference, List.mem_cons, List.not_mem_nil, or_false, ← BitVec.toNat_inj, BitVec.reduceToNat]
  omega

end OpcodeMap

/-- Settles O5: of the 256 values a legal map assigns ten; the reference map's ten are 1 to 4 and 16 to 21. -/
theorem aLegalMapLeaves246OpcodesIllegal : Obligations.ALegalMapLeaves246OpcodesIllegal :=
  ⟨fun _ h => OpcodeMap.length_unassigned h, OpcodeMap.reference_mnemonic?_eq_none_iff⟩

end Sys2Proof

end

/-! ## Unassigned opcodes and don't-care bits in the machine (30_encoding.md R42, R44) -/

section

namespace Sys2Proof.Machine

theorem step_of_unassigned_opcode {s : State} {w : Word} (hr : s.status.runState = .running)
    (hw : s.prog[s.pc]? = some w) (hroom : s.traceFull = false)
    (hn : s.cfg.opcodeMap.mnemonic? (opcField w) = none) :
    step s = .next (s.takeFault (.unknownOpcode (opcField w)) (some (w, none))) := by
  simp [step_of_running hr, runningStep, State.fetch, hw, hroom, decode, hn]

/-- Settles O25: with room in the buffer, the failed lookup is the only check that the fetched word meets. -/
theorem fetchingAnUnassignedOpcodeFaults : Obligations.FetchingAnUnassignedOpcodeFaults := by
  intro s w hr hw hroom hn
  have hlookup := (OpcodeMap.mnemonic?_eq_none_iff s.cfg.opcodeMap (opcField w)).mpr hn
  exact ⟨_, step_of_unassigned_opcode hr hw ((traceFull_false_iff s).mpr hroom) hlookup,
    ⟨rfl, rfl, rfl, rfl, rfl, rfl⟩⟩

/-! ### Two instructions with the same mnemonic end alike but for the record's word -/

theorem forgetWords_done {i j : Instr} (h : i.mnemonic = j.mnemonic) (s : State) (e : Effect) (n : Nat) :
    (s.done i e n).forgetWords = (s.done j e n).forgetWords := by
  simp [State.done, State.forgetWords, h]

/-- fault_opcode is the mnemonic's opcode, so it does not tell the two apart either. -/
theorem forgetWords_raise {i j : Instr} (h : i.mnemonic = j.mnemonic) (s : State) (f : CoreFault) :
    (s.raise i f).forgetWords = (s.raise j f).forgetWords := by
  simp [State.raise, State.takeFault, State.forgetWords, h]

/-- The outcome once the words of the trace records are forgotten. -/
def forgetWordsOf : Host.Outcome State Fault Refusal → Host.Outcome State Fault Refusal := mapNext State.forgetWords

theorem forgetWordsOf_done {i j : Instr} (s : State) (e : Effect) (n : Nat)
    (h : i.mnemonic = j.mnemonic := by rfl) :
    forgetWordsOf (.next (s.done i e n)) = forgetWordsOf (.next (s.done j e n)) :=
  congrArg Host.Outcome.next (forgetWords_done h s e n)

theorem forgetWordsOf_raise {i j : Instr} (s : State) (f : CoreFault)
    (h : i.mnemonic = j.mnemonic := by rfl) :
    forgetWordsOf (.next (s.raise i f)) = forgetWordsOf (.next (s.raise j f)) :=
  congrArg Host.Outcome.next (forgetWords_raise h s f)

section DontCare

variable (slot slot' : Slot) (imm imm' : Imm) (s : State)

theorem execLoadConstant_dontCare :
    forgetWordsOf (execLoadConstant slot imm s) = forgetWordsOf (execLoadConstant slot' imm s) := by
  unfold execLoadConstant
  split
  · exact forgetWordsOf_raise s _
  · exact forgetWordsOf_done _ _ _

theorem execLoadMemory_dontCare :
    forgetWordsOf (execLoadMemory slot imm s) = forgetWordsOf (execLoadMemory slot' imm' s) := by
  unfold execLoadMemory
  cases s.stk with
  | nil => exact forgetWordsOf_raise s _
  | cons a rest =>
    dsimp only
    cases agen s.cfg a with
    | none => exact forgetWordsOf_raise s _
    | some cell => exact forgetWordsOf_done _ _ _

theorem execStoreToMemory_dontCare :
    forgetWordsOf (execStoreToMemory slot imm s) = forgetWordsOf (execStoreToMemory slot' imm' s) := by
  unfold execStoreToMemory
  rcases s.stk with _ | ⟨v, _ | ⟨a, rest⟩⟩
  · exact forgetWordsOf_raise s _
  · exact forgetWordsOf_raise s _
  · dsimp only
    cases agen s.cfg a with
    | none => exact forgetWordsOf_raise s _
    | some cell => exact forgetWordsOf_done _ _ _

theorem execGreater_dontCare :
    forgetWordsOf (execGreater slot imm s) = forgetWordsOf (execGreater slot' imm' s) := by
  unfold execGreater
  rcases s.stk with _ | ⟨b, _ | ⟨a, rest⟩⟩
  · exact forgetWordsOf_raise s _
  · exact forgetWordsOf_raise s _
  · exact forgetWordsOf_done _ _ _

theorem execLoad_dontCare : forgetWordsOf (execLoad slot imm s) = forgetWordsOf (execLoad slot' imm s) := by
  unfold execLoad
  cases agen s.cfg (immValue imm) with
  | none => exact forgetWordsOf_raise s _
  | some cell => exact forgetWordsOf_done _ _ _

theorem execStore_dontCare : forgetWordsOf (execStore slot imm s) = forgetWordsOf (execStore slot' imm s) := by
  unfold execStore
  cases agen s.cfg (immValue imm) with
  | none => exact forgetWordsOf_raise s _
  | some cell => exact forgetWordsOf_done _ _ _

/-- The accumulator ALU reads nothing of the instruction but its imm. -/
theorem accArith_dontCare {i j : Instr} (h : i.mnemonic = j.mnemonic) (himm : i.imm = j.imm) (alu : Int → Int → Int)
    (record : Int → Int → Effect) :
    forgetWordsOf (accArith i alu record s) = forgetWordsOf (accArith j alu record s) := by
  unfold accArith
  rw [himm]
  cases agen s.cfg (immValue j.imm) with
  | none => exact forgetWordsOf_raise s _ h
  | some cell =>
    dsimp only
    split
    · exact forgetWordsOf_done _ _ _ h
    · exact forgetWordsOf_raise s _ h

end DontCare

/-- An instruction and its cleared form end alike (30_encoding.md R42). -/
theorem exec_clearDontCare (i : Instr) (s : State) :
    forgetWordsOf (exec i s) = forgetWordsOf (exec i.clearDontCare s) := by
  cases i with
  | loadConstant slot imm => exact execLoadConstant_dontCare slot 0 imm s
  | loadMemory slot imm => exact execLoadMemory_dontCare slot 0 imm 0 s
  | storeToMemory slot imm => exact execStoreToMemory_dontCare slot 0 imm imm s
  | greater slot imm => exact execGreater_dontCare slot 0 imm 0 s
  | load slot imm => exact execLoad_dontCare slot 0 imm s
  | store slot imm => exact execStore_dontCare slot 0 imm s
  | add slot imm => exact accArith_dontCare (i := .add slot imm) (j := .add 0 imm) s rfl rfl _ _
  | sub slot imm => exact accArith_dontCare (i := .sub slot imm) (j := .sub 0 imm) s rfl rfl _ _
  | jump slot imm => exact forgetWordsOf_done s _ _
  | halt slot imm => exact forgetWordsOf_done _ _ _

theorem exec_eq_next (i : Instr) (s : State) : ∃ t, exec i s = .next t := by
  rcases exec_cases i s with ⟨_, _, h⟩ | ⟨_, h⟩ | ⟨_, t, _, _, h, _⟩
  · exact ⟨_, h⟩
  · exact ⟨_, h⟩
  · exact ⟨t, h⟩

/-- Settles O41: both executions answer a next state, and the two are alike once the words are forgotten. -/
theorem dontCareBitsHaveNoEffect : Obligations.DontCareBitsHaveNoEffect := by
  intro i s
  obtain ⟨t, ht⟩ := exec_eq_next i s
  obtain ⟨u, hu⟩ := exec_eq_next i.clearDontCare s
  have halike := exec_clearDontCare i s
  rw [ht, hu] at halike
  exact ⟨t, u, ht, hu, Host.Outcome.next.inj halike⟩

end Sys2Proof.Machine

end

/-! ## The step of a Running core, by the check that decides it (40_cycle.md R50, 60_exceptions.md R73) -/

section

namespace Sys2Proof.Machine

/-- Settles O19: no case of an instruction is a refusal or a stop of the model. -/
theorem execAlwaysAnswersANextState : Obligations.ExecAlwaysAnswersANextState := exec_eq_next

section

variable {s : State} {w : Word} {i : Instr}

theorem step_past_the_end (hr : s.status.runState = .running) (hpc : s.prog.length ≤ s.pc) :
    step s = .next s.ranOffEnd := by
  simp [step_of_running hr, runningStep, State.fetch, List.getElem?_eq_none hpc]

theorem step_of_traceFull (hr : s.status.runState = .running) (hpc : s.pc < s.prog.length)
    (hfull : s.traceFull = true) : step s = .next (s.takeFault .traceOverflow none) := by
  simp [step_of_running hr, runningStep, State.fetch, List.getElem?_eq_getElem hpc, hfull]

theorem step_of_decoded (hr : s.status.runState = .running) (hw : s.prog[s.pc]? = some w)
    (hroom : s.traceFull = false) (hi : decode s.cfg.opcodeMap w = .ok i) : step s = exec i s := by
  simp [step_of_running hr, runningStep, State.fetch, hw, hroom, hi]

end

/-- Settles O29. -/
theorem stepRunsTheDecodedInstruction : Obligations.StepRunsTheDecodedInstruction := by
  intro s w i hr hw hroom hi
  exact step_of_decoded hr hw ((traceFull_false_iff s).mpr hroom) hi

/-- Settles O30: the end of the program is the first check, before that of the trace buffer. -/
theorem runningOffTheEndHaltsCleanly : Obligations.RunningOffTheEndHaltsCleanly :=
  fun _ hr hpc => step_past_the_end hr hpc

/-! ### Where an instruction leaves pc and the status record (40_cycle.md R53) -/

/-- The index after an instruction that does not fault. `exec_ends` ties it to `exec`. -/
def nextPc (i : Instr) (s : State) : Nat :=
  if i.mnemonic = .halt then s.pc else if i.mnemonic = .jump then i.imm.toNat else s.pc + 1

/-- An instruction takes a fault of its own and keeps pc, or it goes on to the next index and raises nothing. -/
theorem exec_ends {i : Instr} {s t : State} (h : exec i s = .next t) :
    (t.status.runState = .faulted ∧ t.status.cause ≠ .traceOverflow ∧ t.pc = s.pc) ∨
    ((t.status.runState = .halted ∨ t.status.runState = s.status.runState) ∧ t.status.cause = s.status.cause ∧
      t.pc = nextPc i s) := by
  rcases exec_cases i s with ⟨f, hf, ho⟩ | ⟨hi, ho⟩ | ⟨hi, u, m, e, ho, hc, _⟩ <;> cases ho.symm.trans h
  · exact .inl ⟨rfl, f.cause_eq_traceOverflow_iff.not.mpr hf, rfl⟩
  · exact .inr ⟨.inl rfl, rfl, by simp [nextPc, hi]⟩
  · rw [hc]
    exact .inr ⟨.inr rfl, rfl, by simp [nextPc, hi]⟩

/-- An unbounded buffer is never full, and TraceOverflow has no other source. -/
theorem step_keeps_cause_ne_traceOverflow {s t : State} (hd : s.cfg.traceDepth = none)
    (hs : s.status.cause ≠ .traceOverflow) (h : step s = .next t) : t.status.cause ≠ .traceOverflow := by
  rcases step_cases h with ⟨_, rfl, _⟩ | ⟨_, ⟨_, rfl⟩ | ⟨w, _, ⟨hfull, rfl⟩ | ⟨_, _, rfl⟩ | ⟨_, i, _, he⟩⟩⟩
  · exact hs
  · exact hs
  · simp [traceFull_iff, hd] at hfull
  · simp [CoreFault.cause]
  · rcases exec_ends he with ⟨_, hc, _⟩ | ⟨_, hc, _⟩
    · exact hc
    · rw [hc]
      exact hs

/-- Settles O26. -/
theorem fullTraceBufferFaultsBeforeFetch : Obligations.FullTraceBufferFaultsBeforeFetch :=
  ⟨fun s hr hpc hd => step_of_traceFull hr hpc ((traceFull_iff s).mpr hd),
    fun _ _ => step_keeps_cause_ne_traceOverflow⟩

theorem step_pc_of_faulted {s t : State} (hr : s.status.runState = .running) (h : step s = .next t)
    (hf : t.status.runState = .faulted) : t.pc = s.pc := by
  rcases step_cases h with ⟨_, rfl, _⟩ | ⟨_, ⟨_, rfl⟩ | ⟨w, _, ⟨_, rfl⟩ | ⟨_, _, rfl⟩ | ⟨_, i, _, he⟩⟩⟩
  · rfl
  · rfl
  · rfl
  · rfl
  · rcases exec_ends he with ⟨_, _, hpc⟩ | ⟨hrun, _, _⟩
    · exact hpc
    · simp [hf, hr] at hrun

/-- Where the fetched word decodes, every other way for a step to end is a fault. -/
theorem step_pc_of_not_faulted {s t : State} {w : Word} {i : Instr} (hr : s.status.runState = .running)
    (h : step s = .next t) (hw : s.prog[s.pc]? = some w) (hi : decode s.cfg.opcodeMap w = .ok i)
    (hf : t.status.runState ≠ .faulted) : t.pc = nextPc i s := by
  obtain ⟨hpc, _⟩ := List.getElem?_eq_some_iff.mp hw
  cases hfull : s.traceFull with
  | true =>
    cases (step_of_traceFull hr hpc hfull).symm.trans h
    exact absurd rfl hf
  | false =>
    rw [step_of_decoded hr hw hfull hi] at h
    rcases exec_ends h with ⟨hfault, _⟩ | ⟨_, _, hnext⟩
    · exact absurd hfault hf
    · exact hnext

/-- Settles O33: `nextPc` read off for JUMP, for HALT and for the others. -/
theorem pcFollowsTheSequencerRule : Obligations.PcFollowsTheSequencerRule := by
  intro s t hr h
  refine ⟨step_pc_of_faulted hr h, fun w i hw hi hf => ?_⟩
  rw [step_pc_of_not_faulted hr h hw hi hf]
  refine ⟨fun hj => ?_, fun hh => ?_, fun hj hh => ?_⟩
  · simp [nextPc, hj]
  · simp [nextPc, hh]
  · simp [nextPc, hj, hh]

end Sys2Proof.Machine

end

/-! ## The record of a step (40_cycle.md R57 to R59) -/

section

namespace Sys2Proof.Machine

theorem opOfWord_of_decode_eq_ok {o : OpcodeMap} {w : Word} {i : Instr} (h : decode o w = .ok i) :
    opOfWord o w = some i.mnemonic := by
  rcases decode_cases o w with ⟨_, he⟩ | ⟨m, hm, hi⟩
  · cases he.symm.trans h
  · cases hi.symm.trans h
    rw [Instr.mnemonic_ofFields]
    exact hm

/-- The next step fetches the word at pc: the core is Running, pc is below N, and the buffer has room
(40_cycle.md R50). -/
def Fetches (s : State) : Prop :=
  s.status.runState = .running ∧ s.pc < s.prog.length ∧ s.cfg.traceDepth ≠ some s.trace.length

/-- From `s` to `t` the record `r` is appended, which tells the fetched word, its operation, and what became of the
stack and the accumulator. -/
structure Records (s t : State) (r : TraceRecord) : Prop where
  trace : t.trace = s.trace ++ [r]
  pc : r.pc = s.pc
  word : s.prog[s.pc]? = some r.word
  op : r.op = opOfWord s.cfg.opcodeMap r.word
  stk : t.stk = r.effect.stackAfter s.stk
  acc : t.acc = r.effect.accAfter s.acc

/-- From `s` to `t` no record is appended, and the registers stay. -/
structure RecordsNothing (s t : State) : Prop where
  trace : t.trace = s.trace
  stk : t.stk = s.stk
  acc : t.acc = s.acc

/-- The record holds the fetched word, because encoding gives the decoded word back. -/
theorem exec_records {i : Instr} {s t : State} {w : Word} (hw : s.prog[s.pc]? = some w)
    (hi : decode s.cfg.opcodeMap w = .ok i) (h : exec i s = .next t) : ∃ r, Records s t r := by
  have hword : s.prog[s.pc]? = some (encode s.cfg.opcodeMap i) := by rw [encode_of_decode_eq_ok hi, hw]
  have hop : some i.mnemonic = opOfWord s.cfg.opcodeMap (encode s.cfg.opcodeMap i) := by
    rw [encode_of_decode_eq_ok hi, opOfWord_of_decode_eq_ok hi]
  rcases exec_cases i s with ⟨f, _, ho⟩ | ⟨_, ho⟩ | ⟨_, u, m, e, ho, hc, _⟩ <;> cases ho.symm.trans h
  · exact ⟨recordOf s i (.fault f), rfl, rfl, hword, hop, rfl, rfl⟩
  · exact ⟨recordOf s i .halt, rfl, rfl, hword, hop, rfl, rfl⟩
  · rw [hc]
    exact ⟨recordOf s i e, rfl, rfl, hword, hop, rfl, rfl⟩

/-- Every step appends exactly one record if it fetches a word, and none otherwise. -/
theorem step_records {s t : State} (h : step s = .next t) :
    (Fetches s ∧ ∃ r, Records s t r) ∨ (¬ Fetches s ∧ RecordsNothing s t) := by
  rcases step_cases h with
    ⟨hr, rfl, _⟩ | ⟨hr, ⟨hend, rfl⟩ | ⟨w, hw, ⟨hfull, rfl⟩ | ⟨hroom, hn, rfl⟩ | ⟨hroom, i, hi, he⟩⟩⟩
  · exact .inr ⟨fun hf => hr hf.1, rfl, rfl, rfl⟩
  · exact .inr ⟨fun ⟨_, hpc, _⟩ => Nat.not_lt.mpr hend hpc, rfl, rfl, rfl⟩
  · exact .inr ⟨fun ⟨_, _, hd⟩ => hd ((traceFull_iff s).mp hfull), rfl, rfl, rfl⟩
  · obtain ⟨hpc, _⟩ := List.getElem?_eq_some_iff.mp hw
    exact .inl ⟨⟨hr, hpc, (traceFull_false_iff s).mp hroom⟩, ⟨s.pc, w, none, .fault (.unknownOpcode (opcField w))⟩,
      rfl, rfl, hw, hn.symm, rfl, rfl⟩
  · obtain ⟨hpc, _⟩ := List.getElem?_eq_some_iff.mp hw
    exact .inl ⟨⟨hr, hpc, (traceFull_false_iff s).mp hroom⟩, exec_records hw hi he⟩

/-- Settles O35. -/
theorem oneRecordPerFetchedWord : Obligations.OneRecordPerFetchedWord := by
  intro s t h
  rcases step_records h with ⟨hf, r, hrec⟩ | ⟨hf, hnone⟩
  · exact ⟨fun _ => ⟨r, hrec.trace, hrec.pc, hrec.word, hrec.op⟩, fun hn => absurd hf hn⟩
  · exact ⟨fun hf' => absurd hf' hf, fun _ => hnone.trace⟩

/-- Settles O48: the appended record is faithful, and the old ones stay so, because the program store and the
parameters do not change. -/
theorem stepKeepsTheTraceFaithful : Obligations.StepKeepsTheTraceFaithful := by
  intro s t hs h
  rcases step_cases h with ⟨_, rfl, _⟩ | ⟨hrun, _⟩
  · exact hs
  have hold := hs (by simp [hrun])
  obtain ⟨hprog, hcfg⟩ := step_prog_cfg h
  intro _ r hr
  rw [hprog, hcfg]
  rcases step_records h with ⟨_, r', hrec⟩ | ⟨_, hnone⟩
  · rw [hrec.trace, List.mem_append, List.mem_singleton] at hr
    rcases hr with hmem | rfl
    · exact hold r hmem
    · exact ⟨hrec.pc ▸ hrec.word, hrec.op⟩
  · exact hold r (hnone.trace ▸ hr)

theorem replayStack_concat (t : List TraceRecord) (r : TraceRecord) :
    replayStack (t ++ [r]) = r.effect.stackAfter (replayStack t) := by
  simp [replayStack, List.foldl_append]

theorem replayAcc_concat (t : List TraceRecord) (r : TraceRecord) :
    replayAcc (t ++ [r]) = r.effect.accAfter (replayAcc t) := by
  simp [replayAcc, List.foldl_append]

/-- Settles O50: the appended record's effect is what the step makes of the registers; for a fault that is nothing
(log 10). -/
theorem stepKeepsRegistersEqualToTheReplay : Obligations.StepKeepsRegistersEqualToTheReplay := by
  rintro s t ⟨hstk, hacc⟩ h
  rcases step_records h with ⟨_, r, hrec⟩ | ⟨_, hnone⟩
  · constructor
    · rw [hrec.stk, hrec.trace, replayStack_concat, hstk]
    · rw [hrec.acc, hrec.trace, replayAcc_concat, hacc]
  · constructor
    · rw [hnone.stk, hnone.trace, hstk]
    · rw [hnone.acc, hnone.trace, hacc]

/-! ### Along a run -/

/-- A core that is Running after a step has fetched a word in it. -/
theorem fetches_of_step_running {s t : State} (h : step s = .next t) (ht : t.status.runState = .running) :
    Fetches s := by
  rcases step_cases h with
    ⟨hr, rfl, _⟩ | ⟨hr, ⟨_, rfl⟩ | ⟨w, hw, ⟨_, rfl⟩ | ⟨hroom, _, _⟩ | ⟨hroom, _, _, _⟩⟩⟩
  · exact absurd ht hr
  · simp at ht
  · simp at ht
  all_goals
    obtain ⟨hpc, _⟩ := List.getElem?_eq_some_iff.mp hw
    exact ⟨hr, hpc, (traceFull_false_iff s).mp hroom⟩

/-- No step makes a core Running (40_cycle.md R55). -/
theorem running_of_runsTo_running {k : Nat} {s t : State} (h : RunsTo k s t) (ht : t.status.runState = .running) :
    s.status.runState = .running := by
  induction k generalizing s with
  | zero => rwa [← runsTo_zero_iff.mp h]
  | succ k ih =>
    obtain ⟨u, hstep, hrun⟩ := runsTo_succ_iff.mp h
    exact (fetches_of_step_running hstep (ih hrun)).1

theorem step_appends_at_most_one {s t : State} (h : step s = .next t) :
    ∃ more, t.trace = s.trace ++ more ∧ more.length ≤ 1 := by
  rcases step_records h with ⟨_, r, hrec⟩ | ⟨_, hnone⟩
  · exact ⟨[r], hrec.trace, Nat.le_refl 1⟩
  · exact ⟨[], by simpa using hnone.trace, Nat.zero_le 1⟩

theorem runsTo_appends_at_most {k : Nat} {s t : State} (h : RunsTo k s t) :
    ∃ more, t.trace = s.trace ++ more ∧ more.length ≤ k := by
  induction k generalizing s with
  | zero => exact ⟨[], by simp [runsTo_zero_iff.mp h], Nat.le_refl 0⟩
  | succ k ih =>
    obtain ⟨u, hstep, hrun⟩ := runsTo_succ_iff.mp h
    obtain ⟨first, hfirst, hlen⟩ := step_appends_at_most_one hstep
    obtain ⟨more, hmore, hlen'⟩ := ih hrun
    refine ⟨first ++ more, by rw [hmore, hfirst, List.append_assoc], ?_⟩
    rw [List.length_append]
    omega

theorem length_trace_of_step_running {s t : State} (h : step s = .next t) (ht : t.status.runState = .running) :
    t.trace.length = s.trace.length + 1 := by
  rcases step_records h with ⟨_, r, hrec⟩ | ⟨hf, _⟩
  · simp [hrec.trace]
  · exact absurd (fetches_of_step_running h ht) hf

theorem length_trace_of_runsTo_running {k : Nat} {s t : State} (h : RunsTo k s t)
    (ht : t.status.runState = .running) : t.trace.length = s.trace.length + k := by
  induction k generalizing s with
  | zero => rw [runsTo_zero_iff.mp h, Nat.add_zero]
  | succ k ih =>
    obtain ⟨u, hstep, hrun⟩ := runsTo_succ_iff.mp h
    rw [ih hrun, length_trace_of_step_running hstep (running_of_runsTo_running hrun ht)]
    omega

/-- Settles O36: a core Running at the end was Running all along, so each of its steps fetched a word. -/
theorem traceCountsTheExecutedInstructions : Obligations.TraceCountsTheExecutedInstructions :=
  fun _ _ _ h => ⟨runsTo_appends_at_most h, fun _ => length_trace_of_runsTo_running h⟩

end Sys2Proof.Machine

end

/-! ## A JUMP to its own index (40_cycle.md R56, R60) -/

section

namespace Sys2Proof.Machine

/-- A Running core whose fetched word is a JUMP to pc itself. -/
structure AtSelfJump (slot : Slot) (imm : Imm) (s : State) : Prop where
  running : s.status.runState = .running
  fetched : ∃ w, s.prog[s.pc]? = some w ∧ decode s.cfg.opcodeMap w = .ok (.jump slot imm)
  target : imm.toNat = s.pc

/-- The state after a completed JUMP (43_control.md R70). -/
def State.jumped (s : State) (slot : Slot) (imm : Imm) : State :=
  s.done (.jump slot imm) (.jump (immTarget imm)) (immTarget imm)

theorem State.jumped_trace_length (s : State) (slot : Slot) (imm : Imm) :
    (s.jumped slot imm).trace.length = s.trace.length + 1 := by
  simp [State.jumped]

namespace AtSelfJump

variable {slot : Slot} {imm : Imm} {s : State}

theorem step_eq (h : AtSelfJump slot imm s) (hroom : s.traceFull = false) :
    step s = .next (s.jumped slot imm) := by
  obtain ⟨w, hw, hi⟩ := h.fetched
  exact step_of_decoded h.running hw hroom hi

theorem pc_lt (h : AtSelfJump slot imm s) : s.pc < s.prog.length := by
  obtain ⟨w, hw, _⟩ := h.fetched
  exact (List.getElem?_eq_some_iff.mp hw).1

theorem jumped_pc (h : AtSelfJump slot imm s) : (s.jumped slot imm).pc = s.pc := h.target

/-- The JUMP leads back to itself. -/
theorem jumped (h : AtSelfJump slot imm s) : AtSelfJump slot imm (s.jumped slot imm) where
  running := h.running
  fetched := by rw [h.jumped_pc]; exact h.fetched
  target := rfl

theorem runs_on (h : AtSelfJump slot imm s) (hd : s.cfg.traceDepth = none) (k : Nat) :
    ∃ t, RunsTo k s t ∧ t.status.runState = .running ∧ t.pc = s.pc ∧ t.trace.length = s.trace.length + k := by
  induction k generalizing s with
  | zero => exact ⟨s, runsTo_zero_iff.mpr rfl, h.running, rfl, rfl⟩
  | succ k ih =>
    have hroom : s.traceFull = false := by simp [traceFull_false_iff, hd]
    obtain ⟨t, hrun, hr, hpc, hlen⟩ := ih h.jumped hd
    refine ⟨t, runsTo_succ_iff.mpr ⟨_, h.step_eq hroom, hrun⟩, hr, hpc.trans h.jumped_pc, ?_⟩
    rw [hlen, State.jumped_trace_length]
    omega

theorem overflows (h : AtSelfJump slot imm s) {k : Nat} (hd : s.cfg.traceDepth = some (s.trace.length + k)) :
    ∃ t, RunsTo (k + 1) s t ∧ t.status.runState = .faulted ∧ t.status.cause = .traceOverflow ∧
      t.trace.length = s.trace.length + k := by
  induction k generalizing s with
  | zero =>
    have hstep := step_of_traceFull h.running h.pc_lt ((traceFull_iff s).mpr hd)
    exact ⟨_, runsTo_succ_iff.mpr ⟨_, hstep, runsTo_zero_iff.mpr rfl⟩, rfl, rfl, rfl⟩
  | succ k ih =>
    have hroom : s.traceFull = false := by simp [traceFull_false_iff, hd]
    have hlen := State.jumped_trace_length s slot imm
    have hd' : (s.jumped slot imm).cfg.traceDepth = some ((s.jumped slot imm).trace.length + k) :=
      hd.trans (congrArg some (by omega))
    obtain ⟨t, hrun, hr, hc, hlen'⟩ := ih h.jumped hd'
    exact ⟨t, runsTo_succ_iff.mpr ⟨_, h.step_eq hroom, hrun⟩, hr, hc, by omega⟩

end AtSelfJump

/-- Settles O37, by induction on the number of steps: each JUMP leads back to itself with one more record. -/
theorem selfJumpNeverEnds : Obligations.SelfJumpNeverEnds := by
  intro s w slot imm k hr hw hi htarget
  have h : AtSelfJump slot imm s := ⟨hr, ⟨w, hw, hi⟩, htarget⟩
  exact ⟨fun hd => h.runs_on hd k, h.overflows⟩

end Sys2Proof.Machine

end

/-! ## The host's Load (40_cycle.md R49) -/

section

namespace Sys2Proof.Machine

theorem load_eq_none {s : State} {b : List Byte} (h : s.cfg.progMax < b.length / 4) : s.load b = none := if_pos h

theorem load_eq_some {s : State} {b : List Byte} (h : b.length / 4 ≤ s.cfg.progMax) :
    ∃ t, s.load b = some t ∧ t = { s with prog := wordsOfImage b, status := t.status } ∧
      t.status =
        { Status.powerOn with
          truncated := decide (b.length % 4 ≠ 0)
          droppedBytes := BitVec.ofNat 2 (b.length % 4)
          progLen := b.length / 4 } :=
  ⟨_, if_neg (Nat.not_lt.mpr h), rfl, rfl⟩

/-- A Load on a core that is not Running is the load operation (60_exceptions.md R79). -/
theorem transact_load {s : State} (hr : s.status.runState ≠ .running) (b : List Byte) :
    transact (.load b) s = (Transaction.load b).perform s := if_pos (bne_iff_ne.mpr hr)

/-- Settles O54: the two answers of the load operation. -/
theorem loadSetsTheProgramOrIsRefused : Obligations.LoadSetsTheProgramOrIsRefused := by
  intro s b hr
  rw [transact_load hr]
  constructor
  · intro hfits
    obtain ⟨t, hload, ht, hstatus⟩ := load_eq_some hfits
    refine ⟨t, by simp [Transaction.perform, hload], ht, ?_, ?_⟩
    · rw [ht]
      exact wordsOfImage_length b
    · simp [hstatus, Status.powerOn]
  · intro hlarge
    simp [Transaction.perform, load_eq_none hlarge]

end Sys2Proof.Machine

end

/-! ## The stack subset (41_stack.md R61 to R64) -/

section

namespace Sys2Proof.Machine

section

variable (slot : Slot) (imm : Imm) {s : State}

theorem execLoadConstant_of_room (hd : s.stk.length ≠ s.cfg.stackDepth) :
    execLoadConstant slot imm s = .next ({ s with stk := immValue imm :: s.stk }.done
      (.loadConstant slot imm) (.push (immValue imm)) (s.pc + 1)) := if_neg hd

theorem execLoadConstant_of_full (hd : s.stk.length = s.cfg.stackDepth) :
    execLoadConstant slot imm s = .next (s.raise (.loadConstant slot imm) (.stackOverflow s.stk.length)) := if_pos hd

theorem execLoadMemory_of_cell {a : Int} {rest : List Int} {cell : Nat} (hs : s.stk = a :: rest)
    (ha : agen s.cfg a = some cell) :
    execLoadMemory slot imm s = .next ({ s with stk := s.mem.read cell :: rest }.done (.loadMemory slot imm)
      (.memLoad a (s.mem.read cell)) (s.pc + 1)) := by
  simp [execLoadMemory, hs, ha]

theorem execLoadMemory_of_empty (hs : s.stk = []) :
    execLoadMemory slot imm s = .next (s.raise (.loadMemory slot imm) (.stackUnderflow 0)) := by
  simp [execLoadMemory, hs]

/-- The depth is checked before the address (60_exceptions.md R73). -/
theorem execStoreToMemory_of_underflow (hs : s.stk.length < 2) :
    execStoreToMemory slot imm s = .next (s.raise (.storeToMemory slot imm) (.stackUnderflow s.stk.length)) := by
  rcases execStoreToMemory_cases slot imm s with ⟨_, h⟩ | ⟨v, a, rest, hk, _⟩
  · exact h
  · simp [hk] at hs

theorem execGreater_of_underflow (hs : s.stk.length < 2) :
    execGreater slot imm s = .next (s.raise (.greater slot imm) (.stackUnderflow s.stk.length)) := by
  rcases execGreater_cases slot imm s with ⟨_, h⟩ | ⟨b, a, rest, hk, _⟩
  · exact h
  · simp [hk] at hs

theorem execGreater_of_two {b a : Int} {rest : List Int} (hs : s.stk = b :: a :: rest) :
    execGreater slot imm s = .next ({ s with stk := greaterResult a b :: rest }.done (.greater slot imm)
      (.compare a b (greaterResult a b)) (s.pc + 1)) := by
  simp [execGreater, hs]

end

theorem greaterResult_of_lt {a b : Int} (h : b < a) : greaterResult a b = 1 := if_pos h

theorem greaterResult_of_le {a b : Int} (h : a ≤ b) : greaterResult a b = 0 := if_neg (Int.not_lt.mpr h)

/-- Settles O21: the depth is checked before anything is popped or addressed. -/
theorem poppingTooFewEntriesUnderflows : Obligations.PoppingTooFewEntriesUnderflows := by
  intro slot imm s
  refine ⟨fun hs => ?_, fun hs => ?_, fun hs => ?_⟩
  · exact ⟨_, execLoadMemory_of_empty slot imm hs, faultTaken_raise s _ _⟩
  · exact ⟨_, execStoreToMemory_of_underflow slot imm hs, faultTaken_raise s _ _⟩
  · exact ⟨_, execGreater_of_underflow slot imm hs, faultTaken_raise s _ _⟩

theorem stackChange_of_not_inStackSubset {m : Mnemonic} (hm : inStackSubset m = false) : stackChange m = 0 := by
  cases m with
  | loadConstant | loadMemory | storeToMemory | greater => cases hm
  | load | store | add | sub | jump | halt => rfl

/-- An instruction faults, or it changes the depth by what it pops and pushes. The register-style subset bypasses the
stack, so its change is 0 (10_state.md R15). -/
theorem exec_stackDepth {i : Instr} {s t : State} (h : exec i s = .next t) :
    t.status.runState = .faulted ∨ (t.stk.length : Int) = s.stk.length + stackChange i.mnemonic := by
  cases i with
  | loadConstant slot imm =>
    rcases execLoadConstant_cases slot imm s with ⟨_, he⟩ | ⟨_, u, he, rfl⟩ <;> cases he.symm.trans h
    · exact .inl rfl
    · exact .inr (by simp [stackChange, Instr.mnemonic])
  | loadMemory slot imm =>
    rcases execLoadMemory_cases slot imm s with ⟨_, he⟩ | ⟨a, rest, hs, ⟨_, he⟩ | ⟨cell, _, u, he, rfl⟩⟩ <;>
      cases he.symm.trans h
    · exact .inl rfl
    · exact .inl rfl
    · exact .inr (by simp [hs, stackChange, Instr.mnemonic])
  | storeToMemory slot imm =>
    rcases execStoreToMemory_cases slot imm s with ⟨_, he⟩ | ⟨v, a, rest, hs, ⟨_, he⟩ | ⟨cell, _, u, he, rfl⟩⟩ <;>
      cases he.symm.trans h
    · exact .inl rfl
    · exact .inl rfl
    · exact .inr (by simp [hs, stackChange, Instr.mnemonic]; omega)
  | greater slot imm =>
    rcases execGreater_cases slot imm s with ⟨_, he⟩ | ⟨b, a, rest, hs, u, he, rfl⟩ <;> cases he.symm.trans h
    · exact .inl rfl
    · exact .inr (by simp [hs, stackChange, Instr.mnemonic])
  | load | store | add | sub | jump | halt =>
    obtain ⟨hstk, _⟩ := registerSubsetBypassesTheStack _ s t [] rfl h
    exact .inr (by rw [hstk, stackChange_of_not_inStackSubset rfl, add_zero])

/-- Settles O42: the depth changes by the instruction, once the fault is excluded. -/
theorem stackDepthChangesByTheInstruction : Obligations.StackDepthChangesByTheInstruction :=
  fun _ _ _ _ h hnf => (exec_stackDepth h).resolve_left hnf

/-- Settles O9: the check for room is the only one. -/
theorem loadConstantPushesItsImmediate : Obligations.LoadConstantPushesItsImmediate :=
  fun slot imm _ hd => execLoadConstant_of_room slot imm hd

/-- Settles O10: an address in range names its own cell. -/
theorem loadMemoryPushesTheAddressedCell : Obligations.LoadMemoryPushesTheAddressedCell :=
  fun slot imm _ _ _ hs hc => execLoadMemory_of_cell slot imm hs (agen_natCast hc)

/-- Settles O11: the only change of the memory is the one write, which a read of the cell sees and no other does. -/
theorem storeToMemoryWritesTheAddressedCell : Obligations.StoreToMemoryWritesTheAddressedCell := by
  intro slot imm s v cell rest hs hc
  exact ⟨_, execStoreToMemory_of_cell slot imm hs (agen_natCast hc), Memory.read_write_same s.mem cell v,
    fun _ hne => Memory.read_write_other s.mem v hne, rfl⟩

/-- Settles O12: `greaterResult` on either side of the signed comparison. -/
theorem greaterPushesTheSignedComparison : Obligations.GreaterPushesTheSignedComparison := by
  intro slot imm s a b rest hs
  have hexec := execGreater_of_two slot imm hs
  constructor
  · intro hlt
    rwa [greaterResult_of_lt hlt] at hexec
  · intro hle
    rwa [greaterResult_of_le hle] at hexec

/-- Settles O20: the fault is taken before anything is pushed. -/
theorem loadConstantOverflowsAFullStack : Obligations.LoadConstantOverflowsAFullStack :=
  fun slot imm s hd => ⟨_, execLoadConstant_of_full slot imm hd, faultTaken_raise s _ _⟩

end Sys2Proof.Machine

end

/-! ## The register-style accumulator instructions (42_accumulator.md R65 to R69) -/

section

namespace Sys2Proof.Machine

/-- The range check against Val_W as 00_scope.md R7 writes it, with the power in the integers. -/
theorem inRange_iff_pow {w : Nat} {x : Int} :
    inRange w x = true ↔ -2 ^ (w - 1) ≤ x ∧ x ≤ 2 ^ (w - 1) - 1 := by
  simp [inRange_iff, valLimit]

theorem inRange_eq_false_iff_pow {w : Nat} {x : Int} :
    inRange w x = false ↔ x < -2 ^ (w - 1) ∨ 2 ^ (w - 1) ≤ x := by
  rw [← Bool.not_eq_true, inRange_iff_pow]
  omega

theorem execStore_of_cell (slot : Slot) (imm : Imm) {s : State} {cell : Nat}
    (ha : agen s.cfg (immValue imm) = some cell) :
    execStore slot imm s = .next ({ s with mem := s.mem.write cell s.acc }.done (.store slot imm)
      (.accStore (immValue imm) s.acc) (s.pc + 1)) := by
  simp [execStore, ha]

section

variable {i : Instr} {s : State} {cell : Nat} (alu : Int → Int → Int) (record : Int → Int → Effect)
  (ha : agen s.cfg (immValue i.imm) = some cell)

include ha

theorem accArith_of_inRange (hr : inRange s.cfg.w (alu s.acc (s.mem.read cell)) = true) :
    accArith i alu record s = .next ({ s with acc := alu s.acc (s.mem.read cell) }.done i
      (record (s.mem.read cell) (alu s.acc (s.mem.read cell))) (s.pc + 1)) := by
  simp [accArith, ha, hr]

theorem accArith_of_not_inRange (hr : inRange s.cfg.w (alu s.acc (s.mem.read cell)) = false) :
    accArith i alu record s = .next (s.raise i (.arithmeticOverflow (alu s.acc (s.mem.read cell)))) := by
  simp [accArith, ha, hr]

end

/-- Settles O24: the exact result fails the range check, and it is the fault's info. -/
theorem resultOutsideValWFaults : Obligations.ResultOutsideValWFaults := by
  intro slot imm s r hc hout
  have ha : agen s.cfg (immValue imm) = some imm.toNat := agen_natCast hc
  have hr : inRange s.cfg.w r = false := inRange_eq_false_iff_pow.mpr hout
  constructor
  · rintro rfl
    exact ⟨_, accArith_of_not_inRange _ _ ha hr, faultTaken_raise s _ _⟩
  · rintro rfl
    exact ⟨_, accArith_of_not_inRange _ _ ha hr, faultTaken_raise s _ _⟩

/-- Settles O13: an immediate in range names its own cell. -/
theorem loadCopiesTheCellToTheAccumulator : Obligations.LoadCopiesTheCellToTheAccumulator :=
  fun slot imm _ hc => execLoad_of_cell slot imm (agen_natCast hc)

/-- Settles O14: the only change of the memory is the one write, which a read of the cell sees and no other does. -/
theorem storeCopiesTheAccumulatorToTheCell : Obligations.StoreCopiesTheAccumulatorToTheCell := by
  intro slot imm s hc
  exact ⟨_, execStore_of_cell slot imm (agen_natCast hc), Memory.read_write_same s.mem imm.toNat s.acc,
    fun _ hne => Memory.read_write_other s.mem s.acc hne, rfl⟩

/-- Settles O15: the exact sum passes the range check. -/
theorem addWritesTheExactSum : Obligations.AddWritesTheExactSum := by
  rintro slot imm s r hc rfl hlo hhi
  exact accArith_of_inRange (i := .add slot imm) _ _ (agen_natCast hc) (inRange_iff_pow.mpr ⟨hlo, hhi⟩)

/-- Settles O16: the exact difference, with acc the minuend, passes the range check. -/
theorem subWritesTheExactDifference : Obligations.SubWritesTheExactDifference := by
  rintro slot imm s r hc rfl hlo hhi
  exact accArith_of_inRange (i := .sub slot imm) _ _ (agen_natCast hc) (inRange_iff_pow.mpr ⟨hlo, hhi⟩)

end Sys2Proof.Machine

end

/-! ## The control instructions (43_control.md R70, R71) -/

section

namespace Sys2Proof.Machine

section

variable (slot : Slot) (imm : Imm) (s : State)

theorem exec_jump : exec (.jump slot imm) s = .next (s.jumped slot imm) := rfl

/-- The state after a completed HALT (43_control.md R71). -/
def State.halted : State :=
  { s with status := { s.status with runState := .halted, haltReason := .haltInstruction } }.done
    (.halt slot imm) .halt s.pc

theorem exec_halt : exec (.halt slot imm) s = .next (s.halted slot imm) := rfl

end

/-- Completing an instruction sets pc and appends the instruction's record; the state keeps every other field. -/
theorem State.done_eq (s : State) (i : Instr) (e : Effect) (n : Nat) :
    s.done i e n = { s with pc := n, trace := s.trace ++ [recordOf s i e] } := rfl

/-- Settles O17: JUMP completes in the state it finds, with its target as the next pc. -/
theorem jumpSetsPcToItsTarget : Obligations.JumpSetsPcToItsTarget := by
  intro slot imm s
  rw [exec_jump, State.jumped, State.done_eq, immTarget]

/-- Settles O18: HALT completes at its own pc, and its record does not depend on the status it changes. -/
theorem haltEndsTheExecutionInPlace : Obligations.HaltEndsTheExecutionInPlace := by
  intro slot imm s
  rw [exec_halt, State.halted, State.done_eq, recordOf, recordOf]

end Sys2Proof.Machine

end

/-! ## What the host's transactions do to the invariant (60_exceptions.md R79) -/

section

namespace Sys2Proof.Machine

theorem transact_of_allowed {x : Transaction} {s : State} (h : x.allowed s = true) : transact x s = x.perform s :=
  if_pos h

theorem transact_of_not_allowed {x : Transaction} {s : State} (h : ¬ x.allowed s = true) :
    transact x s = (s, .refused) := if_neg h

theorem load_status {s t : State} {b : List Byte} (h : s.load b = some t) :
    t.status =
      { Status.powerOn with
        truncated := decide (b.length % 4 ≠ 0)
        droppedBytes := BitVec.ofNat 2 (b.length % 4)
        progLen := b.length / 4 } := by
  obtain ⟨hfits, _⟩ := load_cases h
  obtain ⟨u, hu, _, hstatus⟩ := load_eq_some hfits
  cases hu.symm.trans h
  exact hstatus

/-- The two bits of dropped_bytes hold the whole remainder (10_state.md R19). -/
theorem ofNat_two_mod_four_eq_zero_iff (n : Nat) : BitVec.ofNat 2 (n % 4) = 0 ↔ n % 4 = 0 := by
  rw [← BitVec.toNat_inj, BitVec.toNat_ofNat, Nat.mod_eq_of_lt (Nat.mod_lt n (by decide))]
  rfl

/-- The reset values of stack, accumulator and memory (70_reset_and_hazards.md R87). -/
theorem DataInv.of_reset_values {s : State} (hw : 20 ≤ s.cfg.w) (hstk : s.stk = []) (hacc : s.acc = 0)
    (hmem : s.mem = []) : DataInv s where
  stackDepth := by simp [hstk]
  stackValues := by simp [hstk]
  accValue := by rw [hacc]; exact inRange_zero hw
  memoryWf := by simp [hmem]
  memoryCells := by simp [hmem]

/-- A core that is not Faulted and whose halt and fault fields are 0, as a Load and the execution reset leave them. -/
theorem StatusInv.of_cleared {s : State} (hr : s.status.runState ≠ .faulted)
    (hcleared : s.status =
      { s.status with haltReason := .haltInstruction, cause := .none, faultPc := 0, faultOpcode := 0 })
    (htrunc : s.status.truncated = decide (s.status.droppedBytes ≠ 0)) (hlen : s.status.progLen = s.prog.length) :
    StatusInv s where
  haltReasonOnlyHalted _ := by rw [hcleared]
  causeIffFaulted := iff_of_true (by rw [hcleared]) hr
  causeNotReserved := by rw [hcleared]; simp
  faultPcOfFault hf := absurd hf hr
  faultPcZero _ := by rw [hcleared]
  faultOpcodeZero _ := by rw [hcleared]
  truncatedIffDropped := htrunc
  progLen := hlen

namespace Inv

variable {s t : State}

/-- An accepted Load keeps pc, which the bound of an execution does not cover while the core is Idle
(10_state.md R13). -/
theorem of_load {b : List Byte} (h : Inv s) (hload : s.load b = some t) : Inv t := by
  obtain ⟨hfits, ht, hidle, _⟩ := load_cases hload
  have hstatus := load_status hload
  have hprog : t.prog = wordsOfImage b := by rw [ht]
  have hcfg : t.cfg = s.cfg := by rw [ht]
  refine ⟨hcfg ▸ h.config, ?_, ⟨?_, fun hr => absurd hidle hr⟩, ?_, ?_, h.traceFits.of_same hcfg (by rw [ht])⟩
  · rw [hprog, hcfg, wordsOfImage_length]
    exact hfits
  · rw [ht]
    exact h.pc.fits
  · rw [ht]
    exact ⟨h.data.stackDepth, h.data.stackValues, h.data.accValue, h.data.memoryWf, h.data.memoryCells⟩
  · refine .of_cleared (by simp [hidle]) (by rw [hstatus]; rfl) ?_ ?_
    · simp only [hstatus, ne_eq, ofNat_two_mod_four_eq_zero_iff]
    · rw [hstatus, hprog, wordsOfImage_length]

theorem executionReset (h : Inv s) : Inv s.executionReset :=
  h.of_frame rfl rfl ⟨Nat.two_pow_pos _, fun _ => Nat.zero_le _⟩
    (.of_reset_values (Config.w_ge_of_legal h.config) rfl rfl rfl)
    (.of_cleared (by simp) rfl h.status.truncatedIffDropped h.status.progLen) fun _ _ => Nat.zero_le _

end Inv

/-- Settles O45: a transaction changes nothing, loads a program, or performs the execution reset. -/
theorem hostTransactionsKeepTheInvariant : Obligations.HostTransactionsKeepTheInvariant := by
  intro s x h
  rcases transact_cases x s with hsame | ⟨_, ⟨b, _, hload⟩ | ⟨_, hreset⟩⟩
  · rwa [hsame]
  · exact h.of_load hload
  · rw [hreset]
    exact h.executionReset

end Sys2Proof.Machine

end

/-! ## Faults: what they leave unchanged, and their codes (60_exceptions.md R72, R74, R75) -/

section

namespace Sys2Proof.Machine

/-- A fault of an instruction is taken on the state the instruction found. -/
theorem exec_eq_raise_of_faulted {i : Instr} {s t : State} (hs : s.status.runState ≠ .faulted)
    (h : exec i s = .next t) (ht : t.status.runState = .faulted) : ∃ f, t = s.raise i f := by
  rcases exec_cases i s with ⟨f, _, ho⟩ | ⟨_, ho⟩ | ⟨_, u, m, e, ho, hc, _⟩ <;> cases ho.symm.trans h
  · exact ⟨f, rfl⟩
  · simp at ht
  · rw [hc] at ht
    exact absurd ht hs

/-- A Running core gets Faulted in no other way than by taking a fault on the state before the step. -/
theorem step_eq_takeFault_of_faulted {s t : State} (hr : s.status.runState = .running) (h : step s = .next t)
    (ht : t.status.runState = .faulted) : ∃ f x, t = s.takeFault f x := by
  rcases step_cases h with ⟨hn, _⟩ | ⟨_, ⟨_, rfl⟩ | ⟨w, _, ⟨_, rfl⟩ | ⟨_, _, rfl⟩ | ⟨_, i, _, he⟩⟩⟩
  · exact absurd hr hn
  · simp at ht
  · exact ⟨_, _, rfl⟩
  · exact ⟨_, _, rfl⟩
  · obtain ⟨f, hf⟩ := exec_eq_raise_of_faulted (by simp [hr]) he ht
    exact ⟨f, _, hf⟩

/-- Settles O27: taking a fault writes the trace and the status record alone. -/
theorem faultsArePrecise : Obligations.FaultsArePrecise := by
  intro s t hr h ht
  obtain ⟨f, x, rfl⟩ := step_eq_takeFault_of_faulted hr h ht
  exact ⟨s.takeFault_pc f x, s.takeFault_mem f x, s.takeFault_prog f x, s.takeFault_cfg f x, s.takeFault_stk f x,
    s.takeFault_acc f x⟩

/-- Code 7 is the reserved cause, and no other (60_exceptions.md R72). -/
theorem Cause.code_eq_seven_iff (c : Cause) : c.code = 7 ↔ c = .reserved := by
  cases c <;> simp [Cause.code]

/-- Settles O28: the codes read off the table, and no fault's cause is the reserved one. -/
theorem faultCodesAreTheTablesNumbers : Obligations.FaultCodesAreTheTablesNumbers :=
  ⟨fun _ => rfl, fun _ => rfl, fun _ => rfl, fun _ => rfl, fun _ => rfl, rfl, rfl,
    fun f h => f.cause_ne_reserved ((Cause.code_eq_seven_iff _).mp h)⟩

end Sys2Proof.Machine

end

/-! ## The transactions of a Running core and the data dump (60_exceptions.md R79, R80) -/

section

namespace Sys2Proof.Machine

theorem allowed_iff_of_running {s : State} (hr : s.status.runState = .running) (x : Transaction) :
    x.allowed s = true ↔ x = .readStatus := by
  cases x <;> simp [Transaction.allowed, hr]

/-- Settles O55: of the preconditions, a Running core meets that of ReadStatus alone. -/
theorem aRunningCoreAnswersOnlyReadStatus : Obligations.ARunningCoreAnswersOnlyReadStatus := by
  intro s x hr
  constructor
  · rintro rfl
    exact transact_of_allowed rfl
  · intro hx
    exact transact_of_not_allowed ((allowed_iff_of_running hr x).not.mpr hx)

section Dump

variable (s : State)

theorem dumpFrom_length (start count : Nat) : (s.dumpFrom start count).length = count := by
  simp [State.dumpFrom]

theorem dumpFrom_getElem? (start : Nat) {count k : Nat} (hk : k < count) :
    (s.dumpFrom start count)[k]? = some (start + k, s.mem.read (start + k)) := by
  simp [State.dumpFrom, List.getElem?_range' hk]

theorem dumpRange_natCast {first last : Nat} (hle : first ≤ last) (hlast : last < s.cfg.memSize) :
    s.dumpRange first last = some (s.dumpFrom first (last - first + 1)) :=
  if_pos ⟨Int.natCast_nonneg first, Int.ofNat_le.mpr hle, Int.ofNat_lt.mpr hlast⟩

theorem dumpRange_eq_none {first last : Int} (h : first < 0 ∨ last < first ∨ (s.cfg.memSize : Int) ≤ last) :
    s.dumpRange first last = none :=
  if_neg (by omega)

end Dump

/-- ReadDump's precondition is that an execution has ended, whatever the range (60_exceptions.md R79). -/
theorem transact_readDump {s : State} (hs : s.final = true) (first last : Int) :
    transact (.readDump first last) s = (Transaction.readDump first last).perform s := transact_of_allowed hs

/-- Settles O56: the three answers of ReadDump on a final core. -/
theorem readDumpListsEveryCellInRange : Obligations.ReadDumpListsEveryCellInRange := by
  intro s hs
  refine ⟨?_, fun first last hle hlast => ?_, fun first last hout => ?_⟩
  · refine ⟨s.dumpAll, transact_of_allowed hs, dumpFrom_length s 0 _, fun i hi => ?_⟩
    simpa [State.dumpAll] using dumpFrom_getElem? s 0 hi
  · refine ⟨s.dumpFrom first (last - first + 1), ?_, dumpFrom_length s first _, fun k hk => ?_⟩
    · simp [transact_readDump hs, Transaction.perform, dumpRange_natCast s hle hlast]
    · exact dumpFrom_getElem? s first (by omega)
  · simp [transact_readDump hs, Transaction.perform, dumpRange_eq_none s hout]

end Sys2Proof.Machine

end

/-! ## Only Start makes a final core run (40_cycle.md R55, 60_exceptions.md R86) -/

section

namespace Sys2Proof.Machine

theorem step_of_resting_eq_self {s : State} (hr : s.status.runState ≠ .running) (hc : s.status.cause ≠ .reserved) :
    step s = .next s := by
  rw [step_of_resting hr, restingStep, if_neg fun h => hc h.2]

theorem runsTo_self_of_resting {s : State} (hr : s.status.runState ≠ .running) (hc : s.status.cause ≠ .reserved)
    (k : Nat) : RunsTo k s s := by
  induction k with
  | zero => exact runsTo_zero_iff.mpr rfl
  | succ k ih => exact runsTo_succ_iff.mpr ⟨s, step_of_resting_eq_self hr hc, ih⟩

/-- Start is allowed on every core that is not Running (60_exceptions.md R79). -/
theorem transact_start {s : State} (hr : s.status.runState ≠ .running) :
    transact .start s = (s.executionReset, .started) := by
  refine transact_of_allowed ?_
  cases h : s.status.runState with
  | running => exact absurd h hr
  | idle | halted | faulted => simp [Transaction.allowed, h]

theorem not_running_of_final {s : State} (hs : s.final = true) : s.status.runState ≠ .running := by
  intro hr
  simp [State.final, hr] at hs

/-- `t` rests with what the execution that ended in `s` left: at most program store and status record differ, as after
a Load. -/
structure RestsAfter (s t : State) : Prop where
  notRunning : t.status.runState ≠ .running
  notReserved : t.status.cause ≠ .reserved
  kept : t = { s with prog := t.prog, status := t.status }

theorem RestsAfter.of_load {s t u : State} {b : List Byte} (h : RestsAfter s t) (hload : t.load b = some u) :
    RestsAfter s u := by
  obtain ⟨_, hu, hidle, hcause⟩ := load_cases hload
  refine ⟨by simp [hidle], by simp [hcause], ?_⟩
  rw [hu, h.kept]

theorem RestsAfter.of_transact {s t : State} {x : Transaction} (h : RestsAfter s t) (hx : x ≠ .start) :
    RestsAfter s (transact x t).1 := by
  rcases transact_cases x t with hsame | ⟨_, ⟨b, _, hload⟩ | ⟨hstart, _⟩⟩
  · rwa [hsame]
  · exact h.of_load hload
  · exact absurd hstart hx

/-- The state after the transactions `xs`, one after the other. -/
def hostRun (xs : List Transaction) (s : State) : State := xs.foldl (fun u x => (transact x u).1) s

theorem hostRun_cons (x : Transaction) (xs : List Transaction) (s : State) :
    hostRun (x :: xs) s = hostRun xs (transact x s).1 := rfl

theorem RestsAfter.of_hostRun {s t : State} {xs : List Transaction} (h : RestsAfter s t) (hxs : .start ∉ xs) :
    RestsAfter s (hostRun xs t) := by
  induction xs generalizing t with
  | nil => exact h
  | cons x xs ih =>
    obtain ⟨hx, hrest⟩ := List.ne_and_not_mem_of_not_mem_cons hxs
    exact ih (h.of_transact (Ne.symm hx)) hrest

/-- Only Load and Start change the state (60_exceptions.md R79). -/
theorem transact_eq_self {x : Transaction} (hstart : x ≠ .start) (hload : ∀ b, x ≠ .load b) (s : State) :
    (transact x s).1 = s := by
  rcases transact_cases x s with hsame | ⟨_, ⟨b, hb, _⟩ | ⟨hx, _⟩⟩
  · exact hsame
  · exact absurd hb (hload b)
  · exact absurd hx hstart

theorem hostRun_eq_self {xs : List Transaction} (hstart : .start ∉ xs) (hload : ∀ b, .load b ∉ xs) (s : State) :
    hostRun xs s = s := by
  induction xs with
  | nil => rfl
  | cons x xs ih =>
    obtain ⟨hx, hrest⟩ := List.ne_and_not_mem_of_not_mem_cons hstart
    rw [hostRun_cons, transact_eq_self (Ne.symm hx) fun b hb => hload b (by simp [hb])]
    exact ih hrest fun b hb => hload b (List.mem_cons_of_mem x hb)

/-- Settles O57, by induction on the transactions: each leaves the core resting, and Start is allowed on a resting
core. -/
theorem onlyStartMakesAFinalCoreRun : Obligations.OnlyStartMakesAFinalCoreRun := by
  intro s t xs hs hc hxs ht
  have hself : RestsAfter s s := ⟨not_running_of_final hs, hc, rfl⟩
  have hrests : RestsAfter s t := ht ▸ hself.of_hostRun hxs
  have hstart := transact_start hrests.notRunning
  exact ⟨hrests.notRunning, runsTo_self_of_resting hrests.notRunning hrests.notReserved, hrests.kept,
    fun hload => ht.trans (hostRun_eq_self hxs hload s), by rw [hstart], by rw [hstart]; rfl⟩

end Sys2Proof.Machine

end

/-! ## Power-on, the execution reset, and what the block can reach (70_reset_and_hazards.md R87, R88) -/

section

namespace Sys2Proof.Machine

/-- The elements of the execution state hold the values that power-on and the execution reset both give them
(70_reset_and_hazards.md R87, R88). -/
structure HoldsResetValues (s : State) : Prop where
  pc : s.pc = 0
  stk : s.stk = []
  acc : s.acc = 0
  mem : s.mem = []
  trace : s.trace = []

theorem holdsResetValues_powerOn (c : Config) : HoldsResetValues (State.powerOn c) := ⟨rfl, rfl, rfl, rfl, rfl⟩

theorem holdsResetValues_executionReset (s : State) : HoldsResetValues s.executionReset :=
  ⟨s.executionReset_pc, s.executionReset_stk, s.executionReset_acc, s.executionReset_mem, s.executionReset_trace⟩

theorem holdsResetValues_reset : HoldsResetValues State.reset := holdsResetValues_executionReset (.powerOn .reference)

namespace HoldsResetValues

variable {s : State}

theorem traceFaithful (h : HoldsResetValues s) : TraceFaithful s := by
  intro _ r hr
  rw [h.trace] at hr
  cases hr

theorem memoryIsLastStores (h : HoldsResetValues s) : MemoryIsLastStores s := by
  intro a
  rw [h.mem, h.trace]
  rfl

theorem registersReplayTrace (h : HoldsResetValues s) : RegistersReplayTrace s := by
  rw [RegistersReplayTrace, h.stk, h.acc, h.trace]
  exact ⟨rfl, rfl⟩

/-- With legal parameters, a program that fits and a lawful status record, the reset values meet the invariant. -/
theorem inv (h : HoldsResetValues s) (hcfg : s.cfg.legal = true) (hprog : s.prog.length ≤ s.cfg.progMax)
    (hstatus : StatusInv s) : Inv s where
  config := hcfg
  progFits := hprog
  pc := ⟨h.pc ▸ Nat.two_pow_pos _, fun _ => h.pc ▸ Nat.zero_le _⟩
  data := .of_reset_values (Config.w_ge_of_legal hcfg) h.stk h.acc h.mem
  status := hstatus
  traceFits := fun d _ => by simp [h.trace]

end HoldsResetValues

theorem Inv.powerOn {c : Config} (hc : c.legal = true) : Inv (State.powerOn c) := by
  have hidle : (State.powerOn c).status.runState ≠ .faulted := by simp [State.powerOn, Status.powerOn]
  exact (holdsResetValues_powerOn c).inv hc (Nat.zero_le _) (.of_cleared hidle rfl rfl rfl)

/-- The reset state is the execution reset of a powered-on block, and Start keeps the invariant. -/
theorem Inv.reset : Inv State.reset :=
  (Inv.powerOn (c := Config.reference) (by decide)).executionReset

/-- Settles O46: both states hold the reset values, and their traces are empty. -/
theorem resetMeetsTheInvariants : Obligations.ResetMeetsTheInvariants := by
  refine ⟨⟨Inv.reset, ?_⟩, fun c hc => ⟨Inv.powerOn hc, ?_⟩⟩
  · have h := holdsResetValues_reset
    exact ⟨h.traceFaithful, h.memoryIsLastStores, h.registersReplayTrace⟩
  · have h := holdsResetValues_powerOn c
    exact ⟨h.traceFaithful, h.memoryIsLastStores, h.registersReplayTrace⟩

/-- Settles O51. -/
theorem powerOnIsIdleWithResetValues : Obligations.PowerOnIsIdleWithResetValues := by
  intro c
  have hc := holdsResetValues_powerOn c
  refine ⟨rfl, rfl, rfl, rfl, hc.pc, hc.stk, hc.acc, fun a => ?_, hc.trace, fun s => ?_⟩
  · rw [hc.mem, Memory.read_nil]
  · have hs := holdsResetValues_executionReset s
    exact ⟨hs.pc.trans hc.pc.symm, hs.stk.trans hc.stk.symm, hs.acc.trans hc.acc.symm, hs.mem.trans hc.mem.symm,
      hs.trace.trans hc.trace.symm⟩

/-- Settles O52: Start is allowed on a core that is not Running, and its effect is the execution reset. -/
theorem startPerformsTheExecutionReset : Obligations.StartPerformsTheExecutionReset := by
  refine ⟨fun _ hr => transact_start hr, ?_⟩
  have hidle : (State.powerOn Config.reference).status.runState ≠ .running := by decide
  rw [transact_start hidle, executionReset_powerOn]

/-- Only the reserved cause stops the model: a resting core answers itself, a Running one does what
40_cycle.md R50 says. -/
theorem exists_step_eq_next {s : State} (hc : s.status.cause ≠ .reserved) : ∃ t, step s = .next t := by
  by_cases hr : s.status.runState = .running
  · rw [step_of_running hr]
    rcases runningStep_cases s with ⟨_, h⟩ | ⟨w, _, ⟨_, h⟩ | ⟨_, _, h⟩ | ⟨_, i, _, h⟩⟩ <;> rw [h]
    · exact ⟨_, rfl⟩
    · exact ⟨_, rfl⟩
    · exact ⟨_, rfl⟩
    · exact exec_eq_next i s
  · exact ⟨s, step_of_resting_eq_self hr hc⟩

theorem Reachable.inv {s : State} (h : Reachable s) : Inv s := by
  induction h with
  | powerOn c hc => exact Inv.powerOn hc
  | host x s _ ih => exact hostTransactionsKeepTheInvariant s x ih
  | step s t _ hstep ih => exact stepKeepsTheInvariant s t ih hstep

/-- Settles O47: the invariant holds by induction on how the state was reached, and it excludes the reserved cause. -/
theorem reachableStatesMeetTheInvariant : Obligations.ReachableStatesMeetTheInvariant :=
  fun _ h => ⟨h.inv, exists_step_eq_next h.inv.status.causeNotReserved⟩

/-- The execution reset keeps the parameters, the program store and the load diagnostics, and nothing else
(70_reset_and_hazards.md R87). -/
theorem executionReset_eq_of_same_load {s s' : State} (hcfg : s'.cfg = s.cfg) (hprog : s'.prog = s.prog)
    (htrunc : s'.status.truncated = s.status.truncated) (hdropped : s'.status.droppedBytes = s.status.droppedBytes)
    (hlen : s'.status.progLen = s.status.progLen) : s'.executionReset = s.executionReset := by
  simp only [State.executionReset, hcfg, hprog, htrunc, hdropped, hlen]

theorem RunsTo.unique {k : Nat} {s t t' : State} (h : RunsTo k s t) (h' : RunsTo k s t') : t = t' :=
  Host.Outcome.next.inj (h.symm.trans h')

/-- Settles O53: Start leads both cores to one state, and a run has one end. -/
theorem anExecutionForgetsTheOneBefore : Obligations.AnExecutionForgetsTheOneBefore := by
  intro s s' t t' k hs hs' hcfg hprog htrunc hdropped hlen hrun hrun'
  have hstart : s'.executionReset = s.executionReset :=
    executionReset_eq_of_same_load hcfg hprog htrunc hdropped hlen
  rw [transact_start hs] at hrun
  rw [transact_start hs', hstart] at hrun'
  exact hrun.unique hrun'

end Sys2Proof.Machine

end

/-! ## Cores that do not run, and the reserved cause (40_cycle.md R55, 93_implementation_defined.md row 19) -/

section

namespace Sys2Proof.Machine

/-- Settles O31: each step of a resting core answers the same state, so by induction any number of them does. -/
theorem restingCoreStaysAsItIs : Obligations.RestingCoreStaysAsItIs :=
  fun k _ hr hc => runsTo_self_of_resting hr hc k

theorem step_of_reserved {s : State} (hf : s.status.runState = .faulted) (hc : s.status.cause = .reserved) :
    step s = .fault .reservedCause := by
  have hr : s.status.runState ≠ .running := by simp [hf]
  rw [step_of_resting hr, restingStep, if_pos ⟨hf, hc⟩]

/-- A Running core never reads its cause, so the reserved code does not stop it: it runs off the end, takes a fault
as a next state, or executes an instruction (40_cycle.md R50). -/
theorem exists_runningStep_eq_next (s : State) : ∃ t, runningStep s = .next t := by
  rcases runningStep_cases s with
    ⟨-, hend⟩ | ⟨w, -, ⟨-, hfull⟩ | ⟨-, -, hunknown⟩ | ⟨-, i, -, hexec⟩⟩
  · exact ⟨_, hend⟩
  · exact ⟨_, hfull⟩
  · exact ⟨_, hunknown⟩
  · rw [hexec]
    exact exec_eq_next i s

/-- Settles O32: a Running core always has a next state, and a resting one answers itself unless it is Faulted with
the reserved code. -/
theorem reservedCauseStopsTheModel : Obligations.ReservedCauseStopsTheModel := by
  refine fun s => ⟨step_of_reserved, fun hnot => ?_⟩
  by_cases hr : s.status.runState = .running
  · rw [step_of_running hr]
    exact exists_runningStep_eq_next s
  · rw [step_of_resting hr, restingStep, if_neg hnot]
    exact ⟨s, rfl⟩

end Sys2Proof.Machine

end
